-- ==== Sys2Proof/Config.lean ====
section
/-! DEFINITION. The two build parameters of the core (00_scope.md R6); everything else is fixed by the spec. The
model has no free value: the spec leaves no value open (93_implementation_defined.md section 1). -/

namespace Sys2Proof

/-- The values of `MIDSTATE_WORD_ORDER` (R6, 92_eei_decisions.md D7). -/
inductive WordOrder where
  | be
  | le
deriving DecidableEq, Repr

/-- The parameters "a model takes as configuration" (R6). A core is built with one value of them; the model carries
it in `Machine.State.cfg`, which no step changes (DESIGN CHOICE, log 1). -/
structure Config where
  /-- `MIDSTATE_WORD_ORDER`: used by `midstate_bytes` alone (41_sha256.md R97). -/
  midstateWordOrder : WordOrder
  /-- `RMD_PRESENT`: whether the RIPEMD-160 unit exists (42_ripemd160.md R120). -/
  rmdPresent : Bool
deriving DecidableEq, Repr

/-- The defaults of R6: `MIDSTATE_WORD_ORDER = BE`, `RMD_PRESENT = true`. -/
def Config.default : Config := { midstateWordOrder := .be, rmdPresent := true }

end Sys2Proof
end

