-- ==== Sys2Proof/Word.lean ====
section
/-! DEFINITION. The word, byte and address types of the core (00_scope.md R6, R7). All values are unsigned bit
patterns; no operation of the core is signed. Everything computed on them is in Machine/Operands.lean. -/

namespace Sys2Proof

/-- A *word*: 32 bits (R7). -/
abbrev Word := BitVec 32

/-- A *byte*: 8 bits (R7). -/
abbrev Byte := BitVec 8

/-- A byte address of the register space, 0x00 to 0xFF (20_memory.md R30). -/
abbrev Addr := BitVec 8

end Sys2Proof
end

