-- ==== Sys2Proof/Syntax.lean ====
section
/-! DEFINITION. The syntax of SBT-1: transactions and responses (30_encoding.md R50 to R52), command words
(R54, R55) and the instructions, one constructor per row of spec/opcode_table.json. -/

namespace Sys2Proof

/-- Format T, the unit the host issues and the core executes: `{we, addr, wdata}` (R50). -/
structure Transaction where
  /-- false = read (`RD`), true = write (`WR`). -/
  we : Bool
  /-- byte address in the register space. -/
  addr : Addr
  /-- the word to write; ignored when `we` is false. -/
  wdata : Word
deriving DecidableEq, Repr

/-- The three exceptions of the core (60_exceptions.md R150). -/
inductive BusError where
  /-- `addr[1:0] != 0` (R152). -/
  | errAlign
  /-- word-aligned and not in the register map (R153). -/
  | errAddr
  /-- a write to `CTRL` whose data is not a legal command word (R154). -/
  | errCmd
deriving DecidableEq, Repr

/-- The response codes of R52. -/
inductive Resp where
  | okay
  | errAlign
  | errAddr
  | errCmd
deriving DecidableEq, Repr

/-- The response to a transaction, `{resp, rdata}` (R51). -/
structure Response where
  resp : Resp
  rdata : Word
deriving DecidableEq, Repr

/-- The registers of the register map (20_memory.md R31). -/
inductive Reg where
  | ctrl
  | len
  | blk (i : Fin 16)
  | h (i : Fin 8)
  | r (i : Fin 5)
deriving DecidableEq, Repr

/-- The seven commands a command word can select (R55). -/
inductive Command where
  | nop
  | shaInit
  | shaBlock
  | midstate
  | rmdInit
  | rmdBlock
  | clear
deriving DecidableEq, Repr

/-- The instructions, one constructor per row of spec/opcode_table.json. -/
inductive Instr where
  /-- `RD addr` (40_bus_access.md R71). -/
  | rd (addr : Addr)
  /-- `WR addr, word` (40_bus_access.md R72). -/
  | wr (addr : Addr) (word : Word)
  /-- `NOP` (43_system.md R130). -/
  | nop
  /-- `SHA_INIT` (41_sha256.md R90). -/
  | shaInit
  /-- `SHA_BLOCK` (41_sha256.md R91). -/
  | shaBlock
  /-- `MIDSTATE` (41_sha256.md R93). -/
  | midstate
  /-- `RMD_INIT` (42_ripemd160.md R118). -/
  | rmdInit
  /-- `RMD_BLOCK` (42_ripemd160.md R119). -/
  | rmdBlock
  /-- `CLEAR` (43_system.md R131). -/
  | clear
deriving DecidableEq, Repr

/-- What happens at the core's port: the host issues a transaction (10_state.md R11), or the environment resets the
core between two transactions (R27; DESIGN CHOICE, log 6). -/
inductive PortEvent where
  | transaction (t : Transaction)
  | reset
deriving DecidableEq, Repr

end Sys2Proof
end

