-- ==== Sys2Proof/Machine/Operands.lean ====
section
/-! DEFINITION. The pseudocode primitives on words and bytes (00_scope.md R8) and the packing of bytes into words
(20_memory.md R36, R37). The core's operands are whole words and the bytes of its block buffer; there is no other
operand form (30_encoding.md R57, 40_bus_access.md R70). -/

namespace Sys2Proof

/-- `ROTR(a, n) = (a >> n) | (a << (32-n))`, 0 < n < 32 (R8). -/
def rotr (a : Word) (n : Nat) : Word := (a >>> n) ||| (a <<< (32 - n))

/-- `ROTL(a, n) = ROTR(a, 32-n)`, 0 < n < 32 (R8). -/
def rotl (a : Word) (n : Nat) : Word := rotr a (32 - n)

/-- `BE32(b0,b1,b2,b3)`: the word `{b0, b1, b2, b3}` (R8). -/
def be32 (b0 b1 b2 b3 : Byte) : Word := b0 ++ b1 ++ b2 ++ b3

/-- `LE32(b0,b1,b2,b3)`: the word `{b3, b2, b1, b0}` (R8). -/
def le32 (b0 b1 b2 b3 : Byte) : Word := b3 ++ b2 ++ b1 ++ b0

/-- `BSWAP(a)`: `{a[7:0], a[15:8], a[23:16], a[31:24]}` (R8). -/
def bswap (a : Word) : Word :=
  a.extractLsb' 0 8 ++ a.extractLsb' 8 8 ++ a.extractLsb' 16 8 ++ a.extractLsb' 24 8

/-- Byte `j` of a word in big-endian order, bits `[31-8j : 24-8j]`, j in 0..3 (20_memory.md R36). -/
def beByte (a : Word) (j : Nat) : Byte := a.extractLsb' (24 - 8 * j) 8

/-- Byte `j` of a word in little-endian order, bits `[8j+7 : 8j]`, j in 0..3 (41_sha256.md R97). -/
def leByte (a : Word) (j : Nat) : Byte := a.extractLsb' (8 * j) 8

/-- The four bytes of a word, most significant first. -/
def beBytes (a : Word) : List Byte := [beByte a 0, beByte a 1, beByte a 2, beByte a 3]

/-- The four bytes of a word, least significant first. -/
def leBytes (a : Word) : List Byte := [leByte a 0, leByte a 1, leByte a 2, leByte a 3]

/-- `blkbyte(k) = BLK[k div 4][31-8*(k mod 4) : 24-8*(k mod 4)]` (R8; 20_memory.md R36). -/
def blkByte (blk : Vector Word 16) (k : Fin 64) : Byte := beByte (blk[k.val / 4]'(by omega)) (k.val % 4)

/-- The 64 bytes of the block buffer, `blkbyte(0..63)`. -/
def blkBytes (blk : Vector Word 16) : Vector Byte 64 := Vector.ofFn (blkByte blk)

/-- Sixteen words from 64 bytes, `BE32(p[4i], p[4i+1], p[4i+2], p[4i+3])` (20_memory.md R36). -/
def beWords (p : Vector Byte 64) : Vector Word 16 :=
  Vector.ofFn fun i =>
    be32 (p[4 * i.val]'(by omega)) (p[4 * i.val + 1]'(by omega)) (p[4 * i.val + 2]'(by omega))
      (p[4 * i.val + 3]'(by omega))

end Sys2Proof
end

