-- ==== Sys2Proof/Machine/RegMap.lean ====
section
/-! DEFINITION. The register map (20_memory.md R31, R33, R35; 30_encoding.md R57): which register a byte address
names, and which of the two address errors an address that names none raises. -/

namespace Sys2Proof

/-- The address of a register: `base + 4 * i` with the bases of R31 (0x40, 0x80, 0xA0). -/
def Reg.addr : Reg → Addr
  | .ctrl => 0x00#8
  | .len => 0x04#8
  | .blk i => BitVec.ofNat 8 (0x40 + 4 * i.val)
  | .h i => BitVec.ofNat 8 (0x80 + 4 * i.val)
  | .r i => BitVec.ofNat 8 (0xA0 + 4 * i.val)

/-- The register at a word-aligned address, `none` where R31 lists the address as unmapped; 0xA0 to 0xB0 are unmapped
when `RMD_PRESENT = false` (R33). The index is `(addr - base) / 4` (R57). -/
def mapped (c : Config) (a : Addr) : Option Reg :=
  let n := a.toNat
  if n = 0x00 then some .ctrl
  else if n = 0x04 then some .len
  else if hb : 0x40 ≤ n ∧ n ≤ 0x7C then some (.blk ⟨(n - 0x40) / 4, by omega⟩)
  else if hh : 0x80 ≤ n ∧ n ≤ 0x9C then some (.h ⟨(n - 0x80) / 4, by omega⟩)
  else if hr : (0xA0 ≤ n ∧ n ≤ 0xB0) ∧ c.rmdPresent = true then some (.r ⟨(n - 0xA0) / 4, by omega⟩)
  else none

/-- `addr[1:0] = 0` (R35). -/
def aligned (a : Addr) : Bool := a.extractLsb' 0 2 == 0#2

/-- The address checks every transaction meets, alignment before mapping (R35, R33; 30_encoding.md R53 steps 1 and 2,
60_exceptions.md R155). -/
def locate (c : Config) (a : Addr) : Except BusError Reg :=
  if aligned a then
    match mapped c a with
    | some g => .ok g
    | none => .error .errAddr
  else .error .errAlign

end Sys2Proof
end

