-- ==== Sys2Proof/WellFormed.lean ====
section
/-! DEFINITION. Which instructions the encoding admits (30_encoding.md R53, R56, R58): the ones a transaction decodes
to on a core built with the given parameters. -/

namespace Sys2Proof

/-- `RD` and `WR` name a word-aligned, mapped address (R53 steps 1 and 2); a write to 0x00 is a command, not a `WR`
(R53 steps 4 and 5, R56); the RIPEMD-160 commands need the unit (R58(c)). -/
def Instr.wellFormed (c : Config) : Instr → Bool
  | .rd a => aligned a && (mapped c a).isSome
  | .wr a _ => aligned a && (mapped c a).isSome && a != 0x00#8
  | .nop => true
  | .shaInit => true
  | .shaBlock => true
  | .midstate => true
  | .rmdInit => c.rmdPresent
  | .rmdBlock => c.rmdPresent
  | .clear => true

end Sys2Proof
end

