-- ==== Sys2Proof/Decode.lean ====
section
/-! DEFINITION. The two formats as bits (30_encoding.md R50, R54), the decoder of R53 and R55, total on every one of
the 2^41 transactions and rejecting by the name of the exception, and after it the encoder of R55, R56, R61. -/

namespace Sys2Proof

/-- `T[40:0] = {we, addr, wdata}` (R50). -/
def Transaction.toBits (t : Transaction) : BitVec 41 := BitVec.ofBool t.we ++ t.addr ++ t.wdata

/-- The fields of T: `we` is bit 40, `addr` bits 39:32, `wdata` bits 31:0 (R50). -/
def Transaction.ofBits (b : BitVec 41) : Transaction :=
  { we := b.getLsbD 40, addr := b.extractLsb' 32 8, wdata := b.extractLsb' 0 32 }

/-- The `rsvd` field of a command word, bits 31:8 (R54). -/
def cmdRsvd (w : Word) : BitVec 24 := w.extractLsb' 8 24

/-- The `op` field of a command word, bits 7:0 (R54). -/
def cmdOp (w : Word) : BitVec 8 := w.extractLsb' 0 8

/-- Format C: the command a legal command word selects (R55); `ERR_CMD` for a non-zero reserved field, an unassigned
`op`, or a RIPEMD-160 `op` on a core without the unit (R58). -/
def decodeCommand (c : Config) (w : Word) : Except BusError Command :=
  if cmdRsvd w = 0#24 then
    match (cmdOp w).toNat with
    | 0x00 => .ok .nop
    | 0x01 => .ok .shaInit
    | 0x02 => .ok .shaBlock
    | 0x03 => .ok .midstate
    | 0x11 => if c.rmdPresent then .ok .rmdInit else .error .errCmd
    | 0x12 => if c.rmdPresent then .ok .rmdBlock else .error .errCmd
    | 0x20 => .ok .clear
    | _ => .error .errCmd
  else .error .errCmd

/-- The instruction of a command: the opcode table's rows of format C. -/
def Command.toInstr : Command → Instr
  | .nop => .nop
  | .shaInit => .shaInit
  | .shaBlock => .shaBlock
  | .midstate => .midstate
  | .rmdInit => .rmdInit
  | .rmdBlock => .rmdBlock
  | .clear => .clear

/-- The decode order of R53, first match wins: alignment, mapping, `RD`, `WR`, command. -/
def decode (c : Config) (t : Transaction) : Except BusError Instr :=
  match locate c t.addr with
  | .error e => .error e
  | .ok _ =>
    if t.we then
      if t.addr = 0x00#8 then
        match decodeCommand c t.wdata with
        | .ok k => .ok k.toInstr
        | .error e => .error e
      else .ok (.wr t.addr t.wdata)
    else .ok (.rd t.addr)

/-- The write to `CTRL` that issues a command word (R55, R61). -/
def ctrlWrite (w : Word) : Transaction := { we := true, addr := 0x00#8, wdata := w }

/-- The transaction of an instruction (R55, R56, R61): `RD addr` is `{0, addr, 0}`, `WR addr, word` is
`{1, addr, word}`, a command is a write of its command word to 0x00. -/
def encode : Instr → Transaction
  | .rd a => { we := false, addr := a, wdata := 0x00000000#32 }
  | .wr a w => { we := true, addr := a, wdata := w }
  | .nop => ctrlWrite 0x00000000#32
  | .shaInit => ctrlWrite 0x00000001#32
  | .shaBlock => ctrlWrite 0x00000002#32
  | .midstate => ctrlWrite 0x00000003#32
  | .rmdInit => ctrlWrite 0x00000011#32
  | .rmdBlock => ctrlWrite 0x00000012#32
  | .clear => ctrlWrite 0x00000020#32

/-- A row of R56: a transaction is of the row when its bits under `mask` are `value`. -/
structure OpcodeRow where
  mask : BitVec 41
  value : BitVec 41
deriving DecidableEq, Repr

/-- Whether 41 bits have the row's pattern. -/
def OpcodeRow.hits (row : OpcodeRow) (b : BitVec 41) : Bool := b &&& row.mask == row.value

/-- The row of R56 (and of spec/opcode_table.json) an instruction stands in. -/
def Instr.row : Instr → OpcodeRow
  | .rd _ => { mask := 0x10000000000#41, value := 0x00000000000#41 }
  | .wr _ _ => { mask := 0x10000000000#41, value := 0x10000000000#41 }
  | .nop => { mask := 0x1FFFFFFFFFF#41, value := 0x10000000000#41 }
  | .shaInit => { mask := 0x1FFFFFFFFFF#41, value := 0x10000000001#41 }
  | .shaBlock => { mask := 0x1FFFFFFFFFF#41, value := 0x10000000002#41 }
  | .midstate => { mask := 0x1FFFFFFFFFF#41, value := 0x10000000003#41 }
  | .rmdInit => { mask := 0x1FFFFFFFFFF#41, value := 0x10000000011#41 }
  | .rmdBlock => { mask := 0x1FFFFFFFFFF#41, value := 0x10000000012#41 }
  | .clear => { mask := 0x1FFFFFFFFFF#41, value := 0x10000000020#41 }

/-- The transaction whose bits are the number `w`, of which `nbits` bits are given and every further bit is 0. A
transaction has 41 bits (R50, R60): a number that does not fit in them is none (DESIGN CHOICE, log 7). -/
def Transaction.ofTableWord (nbits w : Nat) : Option Transaction :=
  let b := w % 2 ^ nbits
  if b < 2 ^ 41 then some (.ofBits (BitVec.ofNat 41 b)) else none

/-- The instruction the decoder reads from a transaction's bits, numbered as R50 numbers them, on the core of the
default parameters (00_scope.md R6); `none` where the transaction raises an exception. -/
def decodeTableWord (nbits w : Nat) : Option Instr :=
  match Transaction.ofTableWord nbits w with
  | some t =>
    match decode Config.default t with
    | .ok i => some i
    | .error _ => none
  | none => none

end Sys2Proof
end

