-- ==== Sys2Proof/Machine/Flags.lean ====
section
/-! DEFINITION. The status a transaction leaves. The core has no flag, condition code, busy, done or sticky error bit
(10_state.md R20) and no operation computes one (41_sha256.md R83): the only status is the code in the response of the
transaction itself (30_encoding.md R51, R52). -/

namespace Sys2Proof

/-- The two bits of a response code (R52). -/
def Resp.code : Resp → BitVec 2
  | .okay => 0#2
  | .errAlign => 1#2
  | .errAddr => 2#2
  | .errCmd => 3#2

/-- The response code of an exception (60_exceptions.md R150). -/
def BusError.resp : BusError → Resp
  | .errAlign => .errAlign
  | .errAddr => .errAddr
  | .errCmd => .errCmd

/-- The 34-bit response, `resp` in bits 33:32 and `rdata` in bits 31:0 (R51). -/
def Response.toBits (p : Response) : BitVec 34 := p.resp.code ++ p.rdata

/-- The response of an exception: its code, and read data 0 (R51; 60_exceptions.md R151). -/
def BusError.response (e : BusError) : Response := { resp := e.resp, rdata := 0x00000000#32 }

end Sys2Proof
end

