-- ==== Sys2Proof/Machine/State.lean ====
section
/-! DEFINITION. The state of the core (10_state.md R12 to R16, R26) with the host's side of its port (30_encoding.md
R50, R51), and the reasons a step could stop. There is no program counter (R19), no flag (R20), no memory
(20_memory.md R30): CTRL is an address and stores nothing (R17), the constant tables are definitions (R21), and no
working value of a command is state (R22). -/

namespace Sys2Proof.Machine

/-- `len`, `blk`, `h`, `r` are the architectural state of R12. `cfg` is the core's build (log 1), `pending` and
`responses` are the host's side of the port (logs 2 and 3). -/
structure State where
  /-- `LEN` (R15). -/
  len : Word
  /-- `BLK[0..15]`, the block buffer (R14). -/
  blk : Vector Word 16
  /-- `H[0..7]`, the SHA-256 accumulator (R13). -/
  h : Vector Word 8
  /-- `R[0..4]`, the RIPEMD-160 chaining value, which exists only when `RMD_PRESENT` (R16; log 5). -/
  r : Vector Word 5
  /-- The build parameters (00_scope.md R6); no step changes them (log 1). -/
  cfg : Config
  /-- What the host and the environment issue, oldest first; a step serves the head (R11, R27; log 2). -/
  pending : List PortEvent
  /-- The responses the host has been given, oldest first (30_encoding.md R51). The core keeps none of them
  (60_exceptions.md R151): nothing reads this field (log 3). -/
  responses : List Response
deriving DecidableEq, Repr

/-- Nothing stops this machine: "every transaction pattern either performs exactly what a rule says or raises exactly
one of the three errors" (30_encoding.md R59), and an error is a response after which the core goes on
(60_exceptions.md R158), so a next state. No constructor, raised by nobody; safe (log 8). -/
inductive Fault where
deriving DecidableEq, Repr

/-- Why an instruction would have no meaning. -/
inductive Refusal where
  /-- An arm of `exec` that has no meaning yet; every arm has one, so nobody raises it. Safe: the machine stops. -/
  | notModelled (mnemonic : String)
deriving DecidableEq, Repr

/-- The state right after reset of a core built with the parameters `c`: every element zero, `H` too, which does not
hold the IV (R26, R170). The port has nothing outstanding (DESIGN CHOICE, logs 2 and 3). -/
def State.resetOf (c : Config) : State :=
  { len := 0x00000000#32
    blk := Vector.replicate 16 0x00000000#32
    h := Vector.replicate 8 0x00000000#32
    r := Vector.replicate 5 0x00000000#32
    cfg := c
    pending := []
    responses := [] }

/-- The state right after reset (R26) of the core with the default parameters (00_scope.md R6). -/
def State.reset : State := State.resetOf Config.default

end Sys2Proof.Machine
end

