-- ==== Sys2Proof/Machine/Ops.lean ====
section
/-! DEFINITION. The operations every meaning is written in: answering a transaction, taking an exception, reading and
writing one register, zeroing the state. -/

namespace Sys2Proof.Machine

/-- `respond OKAY, d`: ends the transaction with code `OKAY` and read data `d` (00_scope.md R8, 30_encoding.md R51). -/
def State.respond (s : State) (d : Word) : State :=
  { s with responses := s.responses ++ [{ resp := .okay, rdata := d }] }

/-- Taking an exception, `raise E` (60_exceptions.md R151): the transaction ends with the code `E` and read data 0,
"and every state element exactly as it was before the transaction". There is no handler, vector, saved program
counter, status or mode (R157), and nothing to return from (R158), so no return operation stands beside this one. -/
def State.raise (s : State) (e : BusError) : State :=
  { s with responses := s.responses ++ [e.response] }

/-- The value a read of a register gives (40_bus_access.md R71); `CTRL` reads 0 (R73). -/
def State.readReg (s : State) : Reg → Word
  | .ctrl => 0x00000000#32
  | .len => s.len
  | .blk i => s.blk[i.val]
  | .h i => s.h[i.val]
  | .r i => s.r[i.val]

/-- The state after a register takes a value; the other words keep theirs (40_bus_access.md R74 to R76). `CTRL`
stores nothing (10_state.md R17). -/
def State.writeReg (s : State) (g : Reg) (w : Word) : State :=
  match g with
  | .ctrl => s
  | .len => { s with len := w }
  | .blk i => { s with blk := s.blk.set i.val w }
  | .h i => { s with h := s.h.set i.val w }
  | .r i => { s with r := s.r.set i.val w }

/-- Zeroes every state element (10_state.md R26, R27; 43_system.md R131); `R` only where it exists. -/
def State.zeroAll (s : State) : State :=
  { s with
    len := 0x00000000#32
    blk := Vector.replicate 16 0x00000000#32
    h := Vector.replicate 8 0x00000000#32
    r := if s.cfg.rmdPresent then Vector.replicate 5 0x00000000#32 else s.r }

/-- The host issues a transaction: it is the next one the core serves (10_state.md R11). -/
def State.issue (s : State) (t : Transaction) : State :=
  { s with pending := .transaction t :: s.pending }

end Sys2Proof.Machine
end

