-- ==== Sys2Proof/Machine/Ripemd160.lean ====
section
/-! DEFINITION. The RIPEMD-160 unit (42_ripemd160.md): constants and tables R111 to R114, functions R115, message words
R116, compression function R117, and the commands RMD_INIT (R118) and RMD_BLOCK (R119), illegal when the unit is
absent (R120). -/

namespace Sys2Proof.Rmd

/-- The initial value `RIV[0..4]` (R111). -/
def iv : Vector Word 5 := #v[0x67452301#32, 0xefcdab89#32, 0x98badcfe#32, 0x10325476#32, 0xc3d2e1f0#32]

/-- `KL[g]`, the left line's added constants (R112). -/
def klTable : List Word := [0x00000000#32, 0x5a827999#32, 0x6ed9eba1#32, 0x8f1bbcdc#32, 0xa953fd4e#32]

/-- `KR[g]`, the right line's added constants (R112). -/
def krTable : List Word := [0x50a28be6#32, 0x5c4dd124#32, 0x6d703ef3#32, 0x7a6d76e9#32, 0x00000000#32]

/-- `rl[j]`, the left line's message word selection, row `g` holds `j = 16g .. 16g+15` (R113). -/
def rlTable : List (Fin 16) :=
  [0, 1, 2, 3, 4, 5, 6, 7, 8, 9, 10, 11, 12, 13, 14, 15] ++
  [7, 4, 13, 1, 10, 6, 15, 3, 12, 0, 9, 5, 2, 14, 11, 8] ++
  [3, 10, 14, 4, 9, 15, 8, 1, 2, 7, 0, 6, 13, 11, 5, 12] ++
  [1, 9, 11, 10, 0, 8, 12, 4, 13, 3, 7, 15, 14, 5, 6, 2] ++
  [4, 0, 5, 9, 7, 12, 2, 10, 14, 1, 3, 8, 11, 6, 15, 13]

/-- `rr[j]`, the right line's message word selection (R113). -/
def rrTable : List (Fin 16) :=
  [5, 14, 7, 0, 9, 2, 11, 4, 13, 6, 15, 8, 1, 10, 3, 12] ++
  [6, 11, 3, 7, 0, 13, 5, 10, 14, 15, 8, 12, 4, 9, 1, 2] ++
  [15, 5, 1, 3, 7, 14, 6, 9, 11, 8, 12, 2, 10, 0, 4, 13] ++
  [8, 6, 4, 1, 3, 11, 15, 0, 5, 12, 2, 13, 9, 7, 10, 14] ++
  [12, 15, 10, 4, 1, 5, 8, 7, 6, 2, 13, 14, 0, 3, 9, 11]

/-- `sl[j]`, the left line's rotation amounts (R114). -/
def slTable : List Nat :=
  [11, 14, 15, 12, 5, 8, 7, 9, 11, 13, 14, 15, 6, 7, 9, 8] ++
  [7, 6, 8, 13, 11, 9, 7, 15, 7, 12, 15, 9, 11, 7, 13, 12] ++
  [11, 13, 6, 7, 14, 9, 13, 15, 14, 8, 13, 6, 5, 12, 7, 5] ++
  [11, 12, 14, 15, 14, 15, 9, 8, 9, 14, 5, 6, 8, 6, 5, 12] ++
  [9, 15, 5, 11, 6, 8, 13, 12, 5, 12, 13, 14, 11, 8, 5, 6]

/-- `sr[j]`, the right line's rotation amounts (R114). -/
def srTable : List Nat :=
  [8, 9, 9, 11, 13, 15, 15, 5, 7, 7, 8, 11, 14, 14, 12, 6] ++
  [9, 13, 15, 7, 12, 8, 9, 11, 7, 7, 12, 7, 6, 15, 13, 11] ++
  [9, 7, 15, 11, 8, 6, 6, 14, 12, 13, 5, 14, 13, 13, 7, 5] ++
  [15, 5, 8, 11, 14, 14, 6, 14, 6, 9, 12, 9, 12, 5, 15, 8] ++
  [8, 5, 12, 9, 12, 5, 14, 6, 8, 13, 6, 5, 15, 13, 11, 11]

/-- `KL[g]`, g in 0..4 (R112). -/
def kl (g : Nat) : Word := klTable.getD g 0#32

/-- `KR[g]`, g in 0..4 (R112). -/
def kr (g : Nat) : Word := krTable.getD g 0#32

/-- `rl[j]`, j in 0..79 (R113). -/
def rl (j : Nat) : Fin 16 := rlTable.getD j 0

/-- `rr[j]`, j in 0..79 (R113). -/
def rr (j : Nat) : Fin 16 := rrTable.getD j 0

/-- `sl[j]`, j in 0..79 (R114). -/
def sl (j : Nat) : Nat := slTable.getD j 0

/-- `sr[j]`, j in 0..79 (R114). -/
def sr (j : Nat) : Nat := srTable.getD j 0

/-- The five bitwise functions `F(g, x, y, z)`, g in 0..4 (R115). -/
def f (g : Nat) (x y z : Word) : Word :=
  match g with
  | 0 => x ^^^ y ^^^ z
  | 1 => (x &&& y) ||| (~~~x &&& z)
  | 2 => (x ||| ~~~y) ^^^ z
  | 3 => (x &&& z) ||| (y &&& ~~~z)
  | _ => x ^^^ (y ||| ~~~z)

/-- One line of the compression, `A, B, C, D, E` (R117); local to one evaluation, never state (10_state.md R22). -/
structure Line where
  a : Word
  b : Word
  c : Word
  d : Word
  e : Word
deriving DecidableEq, Repr

/-- Both lines start from the chaining value (R117). -/
def lineInit (hin : Vector Word 5) : Line :=
  { a := hin[0], b := hin[1], c := hin[2], d := hin[3], e := hin[4] }

/-- One step of a line with the function value `fv`, message word `x`, constant `kg` and rotation `s`:
`T <- ROTL(A + F + X + K, s) + E`, then `A <- E ; E <- D ; D <- ROTL(C, 10) ; C <- B ; B <- T` (R117). -/
def lineStep (fv x kg : Word) (s : Nat) (v : Line) : Line :=
  { a := v.e, b := rotl (v.a + fv + x + kg) s + v.e, c := v.b, d := rotl v.c 10, e := v.d }

/-- The left line after the first `n` steps (R117). -/
def leftAfter (hin : Vector Word 5) (x : Vector Word 16) : Nat → Line
  | 0 => lineInit hin
  | j + 1 =>
    let v := leftAfter hin x j
    lineStep (f (j / 16) v.b v.c v.d) (x[(rl j).val]) (kl (j / 16)) (sl j) v

/-- The right line after the first `n` steps, the functions "in the opposite order" (R115, R117). -/
def rightAfter (hin : Vector Word 5) (x : Vector Word 16) : Nat → Line
  | 0 => lineInit hin
  | j + 1 =>
    let v := rightAfter hin x j
    lineStep (f (4 - j / 16) v.b v.c v.d) (x[(rr j).val]) (kr (j / 16)) (sr j) v

/-- The final combination of the two lines with the input chaining value (R117). -/
def combine (hin : Vector Word 5) (l r : Line) : Vector Word 5 :=
  #v[hin[1] + l.c + r.d, hin[2] + l.d + r.e, hin[3] + l.e + r.a, hin[4] + l.a + r.b, hin[0] + l.b + r.c]

/-- `rmd160_compress(hin[0..4], X[0..15])` (R117). -/
def compress (hin : Vector Word 5) (x : Vector Word 16) : Vector Word 5 :=
  combine hin (leftAfter hin x 80) (rightAfter hin x 80)

/-- The message words of the block buffer, `X[i] = BSWAP(BLK[i])` (R116). -/
def messageWords (blk : Vector Word 16) : Vector Word 16 := Vector.ofFn fun i => bswap blk[i.val]

end Sys2Proof.Rmd

namespace Sys2Proof.Machine

/-- `RMD_INIT`: `ERR_CMD` when the unit is absent; else `R[i] <- RIV[i]` and answers OKAY, 0 (R118). -/
def execRmdInit (s : State) : Host.Outcome State Fault Refusal :=
  if s.cfg.rmdPresent then .next ({ s with r := Rmd.iv }.respond 0x00000000#32)
  else .next (s.raise .errCmd)

/-- `RMD_BLOCK`: `ERR_CMD` when the unit is absent; else `R[0..4] <- rmd160_compress(R[0..4], X[0..15])` with
`X[i] = BSWAP(BLK[i])`, and answers OKAY, 0 (R119). -/
def execRmdBlock (s : State) : Host.Outcome State Fault Refusal :=
  if s.cfg.rmdPresent then .next ({ s with r := Rmd.compress s.r (Rmd.messageWords s.blk) }.respond 0x00000000#32)
  else .next (s.raise .errCmd)

end Sys2Proof.Machine
end

