-- ==== Sys2Proof/Machine/Sha256.lean ====
section
/-! DEFINITION. The SHA-256 unit (41_sha256.md): constants R81, R82, functions R84, schedule R85, compression function
R86, first-block padder R89, and the commands SHA_INIT (R90), SHA_BLOCK (R91), MIDSTATE (R93), with the serialisation
of the midstate (R97). -/

namespace Sys2Proof.Sha

/-- The initial hash value `IV[0..7]` (R81). -/
def iv : Vector Word 8 :=
  #v[0x6a09e667#32, 0xbb67ae85#32, 0x3c6ef372#32, 0xa54ff53a#32,
    0x510e527f#32, 0x9b05688c#32, 0x1f83d9ab#32, 0x5be0cd19#32]

/-- The round constants `K[0..63]`, row by row (R82). -/
def kTable : List Word :=
  [0x428a2f98#32, 0x71374491#32, 0xb5c0fbcf#32, 0xe9b5dba5#32, 0x3956c25b#32, 0x59f111f1#32, 0x923f82a4#32, 0xab1c5ed5#32] ++
  [0xd807aa98#32, 0x12835b01#32, 0x243185be#32, 0x550c7dc3#32, 0x72be5d74#32, 0x80deb1fe#32, 0x9bdc06a7#32, 0xc19bf174#32] ++
  [0xe49b69c1#32, 0xefbe4786#32, 0x0fc19dc6#32, 0x240ca1cc#32, 0x2de92c6f#32, 0x4a7484aa#32, 0x5cb0a9dc#32, 0x76f988da#32] ++
  [0x983e5152#32, 0xa831c66d#32, 0xb00327c8#32, 0xbf597fc7#32, 0xc6e00bf3#32, 0xd5a79147#32, 0x06ca6351#32, 0x14292967#32] ++
  [0x27b70a85#32, 0x2e1b2138#32, 0x4d2c6dfc#32, 0x53380d13#32, 0x650a7354#32, 0x766a0abb#32, 0x81c2c92e#32, 0x92722c85#32] ++
  [0xa2bfe8a1#32, 0xa81a664b#32, 0xc24b8b70#32, 0xc76c51a3#32, 0xd192e819#32, 0xd6990624#32, 0xf40e3585#32, 0x106aa070#32] ++
  [0x19a4c116#32, 0x1e376c08#32, 0x2748774c#32, 0x34b0bcb5#32, 0x391c0cb3#32, 0x4ed8aa4a#32, 0x5b9cca4f#32, 0x682e6ff3#32] ++
  [0x748f82ee#32, 0x78a5636f#32, 0x84c87814#32, 0x8cc70208#32, 0x90befffa#32, 0xa4506ceb#32, 0xbef9a3f7#32, 0xc67178f2#32]

/-- `K[t]`, t in 0..63 (R82). -/
def k (t : Nat) : Word := kTable.getD t 0x00000000#32

/-- `Ch(x, y, z) = (x & y) ^ (~x & z)` (R84). -/
def ch (x y z : Word) : Word := (x &&& y) ^^^ (~~~x &&& z)

/-- `Maj(x, y, z) = (x & y) ^ (x & z) ^ (y & z)` (R84). -/
def maj (x y z : Word) : Word := (x &&& y) ^^^ (x &&& z) ^^^ (y &&& z)

/-- `BSIG0(x) = ROTR(x, 2) ^ ROTR(x, 13) ^ ROTR(x, 22)` (R84). -/
def bsig0 (x : Word) : Word := rotr x 2 ^^^ rotr x 13 ^^^ rotr x 22

/-- `BSIG1(x) = ROTR(x, 6) ^ ROTR(x, 11) ^ ROTR(x, 25)` (R84). -/
def bsig1 (x : Word) : Word := rotr x 6 ^^^ rotr x 11 ^^^ rotr x 25

/-- `SSIG0(x) = ROTR(x, 7) ^ ROTR(x, 18) ^ (x >> 3)` (R84). -/
def ssig0 (x : Word) : Word := rotr x 7 ^^^ rotr x 18 ^^^ (x >>> 3)

/-- `SSIG1(x) = ROTR(x, 17) ^ ROTR(x, 19) ^ (x >> 10)` (R84). -/
def ssig1 (x : Word) : Word := rotr x 17 ^^^ rotr x 19 ^^^ (x >>> 10)

/-- The next word of the schedule from the ones before it, newest first: with `ws = [W[t-1], W[t-2], …]` it is
`SSIG1(W[t-2]) + W[t-7] + SSIG0(W[t-15]) + W[t-16]` (R85). -/
def nextW (ws : List Word) : Word :=
  ssig1 (ws.getD 1 0#32) + ws.getD 6 0#32 + ssig0 (ws.getD 14 0#32) + ws.getD 15 0#32

/-- The first `16 + n` words of the schedule, newest first (R85). -/
def scheduleRev (m : Vector Word 16) : Nat → List Word
  | 0 => m.toList.reverse
  | n + 1 => nextW (scheduleRev m n) :: scheduleRev m n

/-- The schedule `W[0..63]` of `M[0..15]` (R85). -/
def schedule (m : Vector Word 16) : List Word := (scheduleRev m 48).reverse

/-- The working variables of a compression (R86); local to one evaluation, never state (R87). -/
structure Work where
  a : Word
  b : Word
  c : Word
  d : Word
  e : Word
  f : Word
  g : Word
  h : Word
deriving DecidableEq, Repr

/-- The working variables before round 0 (R86). -/
def workInit (hin : Vector Word 8) : Work :=
  { a := hin[0], b := hin[1], c := hin[2], d := hin[3], e := hin[4], f := hin[5], g := hin[6], h := hin[7] }

/-- `T1 <- h + BSIG1(e) + Ch(e, f, g) + K[t] + W[t]` (R86). -/
def roundT1 (kt wt : Word) (v : Work) : Word := v.h + bsig1 v.e + ch v.e v.f v.g + kt + wt

/-- `T2 <- BSIG0(a) + Maj(a, b, c)` (R86). -/
def roundT2 (v : Work) : Word := bsig0 v.a + maj v.a v.b v.c

/-- One round; "all eight assignments use the values from before round t" (R86). -/
def round (kt wt : Word) (v : Work) : Work :=
  { a := roundT1 kt wt v + roundT2 v, b := v.a, c := v.b, d := v.c
    e := v.d + roundT1 kt wt v, f := v.e, g := v.f, h := v.g }

/-- The working variables after the first `n` rounds over the schedule `w` (R86). -/
def workAfter (hin : Vector Word 8) (w : List Word) : Nat → Work
  | 0 => workInit hin
  | t + 1 => round (k t) (w.getD t 0#32) (workAfter hin w t)

/-- Adding the input chaining value to the working variables, "part of the transform" (R86). -/
def addWork (hin : Vector Word 8) (v : Work) : Vector Word 8 :=
  #v[hin[0] + v.a, hin[1] + v.b, hin[2] + v.c, hin[3] + v.d, hin[4] + v.e, hin[5] + v.f, hin[6] + v.g, hin[7] + v.h]

/-- `sha256_compress(Hin[0..7], M[0..15])`, one standard SHA-256 compression transform (R86). -/
def compress (hin : Vector Word 8) (m : Vector Word 16) : Vector Word 8 :=
  addWork hin (workAfter hin (schedule m) 64)

/-- Byte `k` of `pad_first_block(L, b)` (R89): the big-endian bit length `8 * L` in bytes 60..63 when `L <= 55`, and
elsewhere the input byte below `L`, 0x80 at `L`, 0x00 above it. -/
def padByte (len : Word) (b : Vector Byte 64) (k : Fin 64) : Byte :=
  if len.toNat ≤ 55 ∧ 60 ≤ k.val then beByte (8#32 * len) (k.val - 60)
  else if k.val < len.toNat then b[k.val]
  else if k.val = len.toNat then 0x80#8
  else 0x00#8

/-- `pad_first_block(L, b[0..63])`: the first block of the padded working buffer (R89). -/
def padFirstBlock (len : Word) (b : Vector Byte 64) : Vector Byte 64 := Vector.ofFn (padByte len b)

/-- The accumulator `MIDSTATE` computes from `LEN` and `BLK` (R93): from the IV, "not from the old H". -/
def midstate (len : Word) (blk : Vector Word 16) : Vector Word 8 :=
  compress iv (beWords (padFirstBlock len (blkBytes blk)))

/-- The four bytes of one word of the midstate in the configured byte order (R97). -/
def wordBytes (o : WordOrder) (w : Word) : List Byte :=
  match o with
  | .be => beBytes w
  | .le => leBytes w

/-- `midstate_bytes(H[0..7])`: word 0 first, each word in the configured byte order (R97). -/
def midstateBytes (o : WordOrder) (h : Vector Word 8) : List Byte := h.toList.flatMap (wordBytes o)

end Sys2Proof.Sha

namespace Sys2Proof.Machine

/-- `SHA_INIT`: `H[i] <- IV[i]`, answers OKAY, 0 (R90). -/
def execShaInit (s : State) : Host.Outcome State Fault Refusal :=
  .next ({ s with h := Sha.iv }.respond 0x00000000#32)

/-- `SHA_BLOCK`: `H[0..7] <- sha256_compress(H[0..7], BLK[0..15])`, answers OKAY, 0 (R91); the message words are the
block words (R88). -/
def execShaBlock (s : State) : Host.Outcome State Fault Refusal :=
  .next ({ s with h := Sha.compress s.h s.blk }.respond 0x00000000#32)

/-- `MIDSTATE`: the transform of the padded first block from the IV, answers OKAY, 0 (R93). The padded block is not
written back (R94). -/
def execMidstate (s : State) : Host.Outcome State Fault Refusal :=
  .next ({ s with h := Sha.midstate s.len s.blk }.respond 0x00000000#32)

end Sys2Proof.Machine
end

