-- ==== Sys2Proof/Machine/System.lean ====
section
/-! DEFINITION. The whole-core commands NOP and CLEAR (43_system.md). The core has no other system operation (R132). -/

namespace Sys2Proof.Machine

/-- `NOP`: "Reads nothing, writes nothing" and answers OKAY, 0 (R130). -/
def execNop (s : State) : Host.Outcome State Fault Refusal := .next (s.respond 0x00000000#32)

/-- `CLEAR`: every state element becomes zero, and the command answers OKAY, 0 (R131). -/
def execClear (s : State) : Host.Outcome State Fault Refusal := .next (s.zeroAll.respond 0x00000000#32)

end Sys2Proof.Machine
end

