-- ==== Sys2Proof/Machine/Bus.lean ====
section
/-! DEFINITION. The register read and write transactions RD and WR (40_bus_access.md R70 to R78). -/

namespace Sys2Proof.Machine

/-- Executes a command (30_encoding.md R55): the meaning of its own instruction. -/
def execCommand (k : Command) (s : State) : Host.Outcome State Fault Refusal :=
  match k with
  | .nop => execNop s
  | .shaInit => execShaInit s
  | .shaBlock => execShaBlock s
  | .midstate => execMidstate s
  | .rmdInit => execRmdInit s
  | .rmdBlock => execRmdBlock s
  | .clear => execClear s

/-- `RD addr` (R71): the alignment and mapping exceptions, else OKAY with the addressed word; `CTRL` reads 0 (R73). A
read changes no state element (20_memory.md R38). -/
def execRd (addr : Addr) (s : State) : Host.Outcome State Fault Refusal :=
  match locate s.cfg addr with
  | .error e => .next (s.raise e)
  | .ok g => .next (s.respond (s.readReg g))

/-- `WR addr, word` (R72): the alignment and mapping exceptions; a write to `CTRL` executes the command `word` or
raises `ERR_CMD`; any other mapped register takes the word and the write answers OKAY, 0 (R74 to R76). The decoder
gives a write to `CTRL` as its command and never as a `WR` (30_encoding.md R56); the meaning covers it all the same,
as R72 writes it (DEDUCED, log 10). -/
def execWr (addr : Addr) (word : Word) (s : State) : Host.Outcome State Fault Refusal :=
  match locate s.cfg addr with
  | .error e => .next (s.raise e)
  | .ok .ctrl =>
    match decodeCommand s.cfg word with
    | .error e => .next (s.raise e)
    | .ok k => execCommand k s
  | .ok g => .next ((s.writeReg g word).respond 0x00000000#32)

end Sys2Proof.Machine
end

