-- ==== Sys2Proof/Machine/Dispatch.lean ====
section
/-! DEFINITION. One arm per instruction, each a direct call of its meaning. -/

namespace Sys2Proof.Machine

def exec (i : Instr) (s : State) : Host.Outcome State Fault Refusal :=
  match i with
  | .rd addr => Sys2Proof.Machine.execRd addr s
  | .wr addr word => Sys2Proof.Machine.execWr addr word s
  | .nop => Sys2Proof.Machine.execNop s
  | .shaInit => Sys2Proof.Machine.execShaInit s
  | .shaBlock => Sys2Proof.Machine.execShaBlock s
  | .midstate => Sys2Proof.Machine.execMidstate s
  | .rmdInit => Sys2Proof.Machine.execRmdInit s
  | .rmdBlock => Sys2Proof.Machine.execRmdBlock s
  | .clear => Sys2Proof.Machine.execClear s

end Sys2Proof.Machine
end

