-- ==== Sys2Proof/Machine/Serve.lean ====
section
/-! DEFINITION. Serving one event of the port: a transaction is decoded and executed as one indivisible step
(20_memory.md R40), a reset event zeroes the state (10_state.md R27). -/

namespace Sys2Proof.Machine

/-- One transaction (30_encoding.md R53): what the decoder rejects raises its exception, anything else executes. -/
def transact (t : Transaction) (s : State) : Host.Outcome State Fault Refusal :=
  match decode s.cfg t with
  | .error e => .next (s.raise e)
  | .ok i => exec i s

/-- The reset event "sets `LEN <- 0`, `BLK[i] <- 0` …, `H[i] <- 0` …, `R[i] <- 0`" (10_state.md R26); it is no
transaction and answers nothing (R27; DESIGN CHOICE, log 6). -/
def resetEvent (s : State) : Host.Outcome State Fault Refusal := .next s.zeroAll

/-- Serves one event. -/
def serve (e : PortEvent) (s : State) : Host.Outcome State Fault Refusal :=
  match e with
  | .transaction t => transact t s
  | .reset => resetEvent s

end Sys2Proof.Machine
end

