-- ==== Sys2Proof/Machine/Step.lean ====
section
/-! DEFINITION. One step of the core: it serves the oldest pending event (10_state.md R11, 20_memory.md R40, R41). -/

namespace Sys2Proof.Machine

/-- "Between two transactions the core's state does not change" (R11; 60_exceptions.md R165): with nothing pending the
step leaves the state as it is. Otherwise it takes the oldest event and serves it. -/
def step (s : State) : Host.Outcome State Fault Refusal :=
  match s.pending with
  | [] => .next s
  | e :: rest => serve e { s with pending := rest }

/-- The state in which the host has issued, as the next transaction, the one whose bits are the number `w` (log 4);
`s` itself where the number is no transaction's (log 7). -/
def State.withFetchWord (s : State) (nbits w : Nat) : State :=
  match Transaction.ofTableWord nbits w with
  | some t => s.issue t
  | none => s

end Sys2Proof.Machine
end

