-- ==== Sys2Proof/Machine/Sequences.lean ====
section
/-! DEFINITION. The host's side of the contract (00_scope.md R4): the pseudo-instructions of 30_encoding.md R62 and the
host sequences of 44_host_sequences.md R135 to R143 as transactions issued to the core, next to the byte-level
functions they are to compute: complete SHA-256 and RIPEMD-160, `computeMidstate` (41_sha256.md R92), the address
payload. None of this is hardware; it adds no step and no state to the core. -/

namespace Sys2Proof.Seq

open Sys2Proof.Machine

/-- `RD <reg>` (R61). -/
def rdReg (g : Reg) : Transaction := encode (.rd g.addr)

/-- `WR <reg>, <word>` (R61). -/
def wrReg (g : Reg) (w : Word) : Transaction := encode (.wr g.addr w)

/-- `<MNEMONIC>`: a command (R61). -/
def cmd (k : Command) : Transaction := encode k.toInstr

/-- `LDBLK w0, ..., w15`: 16 writes, ascending (R62). -/
def ldBlk (w : Vector Word 16) : List Transaction := (List.finRange 16).map fun i => wrReg (.blk i) w[i.val]

/-- `LDBYTES m` (n <= 64): `ceil(n/4)` writes, bytes at index `>= n` taken as 0x00 (R62).
Of more than 64 bytes the first 64 are written and the rest dropped (DESIGN CHOICE, log 11: R62 gives it for
n <= 64 only). -/
def ldBytes (m : List Byte) : List Transaction :=
  ((List.finRange 16).take ((m.length + 3) / 4)).map fun i =>
    wrReg (.blk i) (be32 (m.getD (4 * i.val) 0x00#8) (m.getD (4 * i.val + 1) 0x00#8)
      (m.getD (4 * i.val + 2) 0x00#8) (m.getD (4 * i.val + 3) 0x00#8))

/-- `LDH w0, ..., w7` (R62). -/
def ldH (w : Vector Word 8) : List Transaction := (List.finRange 8).map fun i => wrReg (.h i) w[i.val]

/-- `RDH` (R62). -/
def rdH : List Transaction := (List.finRange 8).map fun i => rdReg (.h i)

/-- `LDR w0, ..., w4` (R62). -/
def ldR (w : Vector Word 5) : List Transaction := (List.finRange 5).map fun i => wrReg (.r i) w[i.val]

/-- `RDR` (R62). -/
def rdR : List Transaction := (List.finRange 5).map fun i => rdReg (.r i)

/-- `SETLEN n` (R62); of a length of 2^32 or more, its value modulo 2^32 (DESIGN CHOICE, log 11: R62 writes one word). -/
def setLen (n : Nat) : List Transaction := [wrReg .len (BitVec.ofNat 32 n)]

/-- `BE32` of the four bytes of `q` from index `i` on. -/
def beWordAt (q : List Byte) (i : Nat) : Word :=
  be32 (q.getD i 0x00#8) (q.getD (i + 1) 0x00#8) (q.getD (i + 2) 0x00#8) (q.getD (i + 3) 0x00#8)

/-- Block `b` of a byte sequence as sixteen words, `BE32(q[0..3]), …, BE32(q[60..63])` (R136). -/
def blockAt (q : List Byte) (b : Nat) : Vector Word 16 := Vector.ofFn fun i => beWordAt q (64 * b + 4 * i.val)

/-- "each 64-byte block q …, in order" (R136, R138). -/
def blocksOf (q : List Byte) : List (Vector Word 16) := (List.range (q.length / 64)).map (blockAt q)

/-- The 8-byte big-endian form of a number below 2^64; of a larger one its value modulo 2^64 (DESIGN CHOICE, log 11:
R135 pads only messages of fewer than 2^61 bytes). -/
def be64 (n : Nat) : List Byte :=
  beBytes (BitVec.ofNat 32 (n / 2 ^ 32)) ++ beBytes (BitVec.ofNat 32 n)

/-- The 8-byte little-endian form (R137), modulo 2^64 likewise (log 11). -/
def le64 (n : Nat) : List Byte :=
  leBytes (BitVec.ofNat 32 n) ++ leBytes (BitVec.ofNat 32 (n / 2 ^ 32))

/-- `z = (55 - n) mod 64`, the zero bytes of the padding (R135). -/
def padZeros (n : Nat) : Nat := (119 - n % 64) % 64

/-- `pad256(m) = m ‖ 0x80 ‖ 0x00 * z ‖ len8`, `len8` the big-endian bit length (R135). -/
def pad256 (m : List Byte) : List Byte :=
  m ++ [0x80#8] ++ List.replicate (padZeros m.length) 0x00#8 ++ be64 (8 * m.length)

/-- `pad160(m) = m ‖ 0x80 ‖ 0x00 * z ‖ len8le`, `len8le` the little-endian bit length (R137). -/
def pad160 (m : List Byte) : List Byte :=
  m ++ [0x80#8] ++ List.replicate (padZeros m.length) 0x00#8 ++ le64 (8 * m.length)

/-- The SHA-256 chaining value after the blocks, from a starting value. -/
def shaFold (h : Vector Word 8) (bs : List (Vector Word 16)) : Vector Word 8 := bs.foldl Sha.compress h

/-- The RIPEMD-160 chaining value after the blocks, from a starting value. -/
def rmdFold (r : Vector Word 5) (bs : List (Vector Word 16)) : Vector Word 5 :=
  bs.foldl (fun h b => Rmd.compress h (Rmd.messageWords b)) r

/-- `SHA256(m)`, the complete digest: 32 bytes, each word big-endian (R136). -/
def sha256 (m : List Byte) : List Byte := (shaFold Sha.iv (blocksOf (pad256 m))).toList.flatMap beBytes

/-- `RIPEMD160(m)`, the complete digest: 20 bytes, each word little-endian (R138). -/
def rmd160 (m : List Byte) : List Byte := (rmdFold Rmd.iv (blocksOf (pad160 m))).toList.flatMap leBytes

/-- The padded working buffer of `computeMidstate`, `N = 64 * ceil((L+9)/64)` bytes: the input, 0x80, zeros, and the
32-bit big-endian `(8 * L) mod 2^32` in the last four bytes (41_sha256.md R92). -/
def workingBuffer (m : List Byte) : List Byte :=
  m ++ [0x80#8] ++ List.replicate (64 * ((m.length + 9 + 63) / 64) - m.length - 5) 0x00#8 ++
    beBytes (BitVec.ofNat 32 (8 * m.length))

/-- `computeMidstate(in)`: one transform of the FIRST block of the working buffer from the IV, as 32 raw bytes (R92). -/
def computeMidstate (o : WordOrder) (m : List Byte) : List Byte :=
  Sha.midstateBytes o (Sha.compress Sha.iv (blockAt (workingBuffer m) 0))

/-- `pubkeyToAddressPayload(pubkey)`, steps 1 to 5 of R141. -/
def addressPayload (pubkey : List Byte) : List Byte :=
  let versioned := 0x00#8 :: rmd160 (sha256 pubkey)
  versioned ++ (sha256 (sha256 versioned)).take 4

/-- The host issues the transactions one after the other, each when the one before has been answered (10_state.md
R11, 20_memory.md R41). -/
def run : List Transaction → State → Option State
  | [], s => some s
  | t :: ts, s =>
    match step (s.issue t) with
    | .next s' => run ts s'
    | .fault _ => none
    | .refused _ => none

/-- The read data of the last `n` responses, in order. -/
def lastWords (n : Nat) (s : State) : List Word :=
  (s.responses.drop (s.responses.length - n)).map Response.rdata

/-- For each block: `LDBLK`, then the block command (R136, R138). -/
def blockTransactions (k : Command) (bs : List (Vector Word 16)) : List Transaction :=
  bs.flatMap fun b => ldBlk b ++ [cmd k]

/-- The transactions of `SHA256 m` (R136). -/
def sha256Transactions (m : List Byte) : List Transaction :=
  [cmd .shaInit] ++ blockTransactions .shaBlock (blocksOf (pad256 m)) ++ rdH

/-- The transactions of `RMD160 m` (R138). -/
def rmd160Transactions (m : List Byte) : List Transaction :=
  [cmd .rmdInit] ++ blockTransactions .rmdBlock (blocksOf (pad160 m)) ++ rdR

/-- The transactions of `MIDSTATE_OF m` (R139). -/
def midstateOfTransactions (m : List Byte) : List Transaction :=
  ldBytes (m.take 64) ++ setLen m.length ++ [cmd .midstate] ++ rdH

/-- The transactions of `SHA256_RESUME` from the saved midstate words `w` of the message `m` (R140): every block of
`pad256(m)` after the first. Defined for a message of fewer than 64 bytes too (DESIGN CHOICE, log 11: R140 gives it for
n >= 64 only). -/
def resumeTransactions (w : Vector Word 8) (m : List Byte) : List Transaction :=
  ldH w ++ blockTransactions .shaBlock (blocksOf (pad256 m)).tail ++ rdH

/-- `SHA256 m`: issues the transactions and serialises the eight words read, big-endian (R136). -/
def runSha256 (m : List Byte) (s : State) : Option (List Byte × State) :=
  (run (sha256Transactions m) s).map fun s' => ((lastWords 8 s').flatMap beBytes, s')

/-- `RMD160 m`: issues the transactions and serialises the five words read, little-endian (R138). -/
def runRmd160 (m : List Byte) (s : State) : Option (List Byte × State) :=
  (run (rmd160Transactions m) s).map fun s' => ((lastWords 5 s').flatMap leBytes, s')

/-- `MIDSTATE_OF m`: issues the transactions and applies `midstate_bytes` to the eight words read (R139). -/
def runMidstateOf (m : List Byte) (s : State) : Option (List Byte × State) :=
  (run (midstateOfTransactions m) s).map fun s' => ((lastWords 8 s').flatMap (Sha.wordBytes s.cfg.midstateWordOrder), s')

/-- `SHA256_RESUME`: issues the transactions and serialises the eight words read (R140). -/
def runResume (w : Vector Word 8) (m : List Byte) (s : State) : Option (List Byte × State) :=
  (run (resumeTransactions w m) s).map fun s' => ((lastWords 8 s').flatMap beBytes, s')

/-- `ADDRPAYLOAD pubkey`: four hash runs, the host packing the bytes of one run's result into the next (R141, R143). -/
def runAddrPayload (pubkey : List Byte) (s : State) : Option (List Byte × State) :=
  (runSha256 pubkey s).bind fun p1 =>
  (runRmd160 p1.1 p1.2).bind fun p2 =>
  (runSha256 (0x00#8 :: p2.1) p2.2).bind fun p3 =>
  (runSha256 p3.1 p3.2).map fun p4 => (0x00#8 :: p2.1 ++ p4.1.take 4, p4.2)

end Sys2Proof.Seq
end

