-- ==== Sys2Proof/Safety.lean ====
section
/-! DEFINITION. The terms the claims are stated in: what stays the same in a state, what a well-formed state is, and
what a run without error is. -/

namespace Sys2Proof.Machine

/-- Every state element of the core (10_state.md R12) is the same in both states. -/
def SameElements (s t : State) : Prop := t.len = s.len ∧ t.blk = s.blk ∧ t.h = s.h ∧ t.r = s.r

/-- One more response, `p`, has been given, and the host's queue and the core's build are the same. -/
def Answered (s t : State) (p : Response) : Prop :=
  t.responses = s.responses ++ [p] ∧ t.pending = s.pending ∧ t.cfg = s.cfg

/-- The word-aligned addresses R31 (20_memory.md) lists as unmapped, 60_exceptions.md R153: 0x08 to 0x3C, 0xB4 to 0xFC,
and 0xA0 to 0xB0 on a core without the RIPEMD-160 unit. -/
def UnmappedAddress (c : Config) (n : Nat) : Prop :=
  (0x08 ≤ n ∧ n ≤ 0x3C) ∨ (0xB4 ≤ n ∧ n ≤ 0xFC) ∨ (c.rmdPresent = false ∧ 0xA0 ≤ n ∧ n ≤ 0xB0)

/-- An illegal command word (30_encoding.md R58): (a) a non-zero reserved field, (b) an unassigned `op`, (c) a
RIPEMD-160 `op` on a core without the unit. -/
def IllegalCommandWord (c : Config) (w : Word) : Prop :=
  w.extractLsb' 8 24 ≠ 0#24 ∨ (w.extractLsb' 0 8).toNat ∉ [0x00, 0x01, 0x02, 0x03, 0x11, 0x12, 0x20] ∨
    ((w.extractLsb' 0 8).toNat ∈ [0x11, 0x12] ∧ c.rmdPresent = false)

/-- Which instructions write `LEN`, `BLK`, `H`, `R` (the table of 10_state.md R25; a `WR` names the one word). -/
structure WriteRow where
  len : Prop
  blk : Fin 16 → Prop
  h : Fin 8 → Prop
  r : Fin 5 → Prop

/-- The rows of R25 for a core with the parameters `c`. -/
def writeRow (c : Config) : Instr → WriteRow
  | .rd _ => ⟨False, fun _ => False, fun _ => False, fun _ => False⟩
  | .wr a _ =>
    ⟨a.toNat = 0x04, fun i => a.toNat = 0x40 + 4 * i.val, fun i => a.toNat = 0x80 + 4 * i.val,
      fun i => a.toNat = 0xA0 + 4 * i.val⟩
  | .nop => ⟨False, fun _ => False, fun _ => False, fun _ => False⟩
  | .shaInit => ⟨False, fun _ => False, fun _ => True, fun _ => False⟩
  | .shaBlock => ⟨False, fun _ => False, fun _ => True, fun _ => False⟩
  | .midstate => ⟨False, fun _ => False, fun _ => True, fun _ => False⟩
  | .rmdInit => ⟨False, fun _ => False, fun _ => False, fun _ => True⟩
  | .rmdBlock => ⟨False, fun _ => False, fun _ => False, fun _ => True⟩
  | .clear => ⟨True, fun _ => True, fun _ => True, fun _ => c.rmdPresent = true⟩

/-- The operands a transaction carries are the instruction's (30_encoding.md R50, R57). -/
def OperandsOf (t : Transaction) : Instr → Prop
  | .rd a => t.addr = a
  | .wr a w => t.addr = a ∧ t.wdata = w
  | .nop => True
  | .shaInit => True
  | .shaBlock => True
  | .midstate => True
  | .rmdInit => True
  | .rmdBlock => True
  | .clear => True

/-- A response as R51 (30_encoding.md) lets one be: an error response carries read data 0. -/
def ErrorDataZero (p : Response) : Prop := p.resp ≠ Resp.okay → p.rdata = 0x00000000#32

/-- The invariant of the model: the storage of an absent RIPEMD-160 unit holds zero (log 5), and every error response
the host was given carries read data 0 (30_encoding.md R51). -/
structure State.Inv (s : State) : Prop where
  absentUnit : s.cfg.rmdPresent = false → s.r = Vector.replicate 5 0x00000000#32
  errorData : ∀ p ∈ s.responses, ErrorDataZero p

/-- The host's run from `s` to `t` met no error: every response given on the way is `OKAY` (70_reset_and_hazards.md
R179, 44_host_sequences.md R144). -/
def NoError (s t : State) : Prop :=
  ∃ ps : List Response, t.responses = s.responses ++ ps ∧ ∀ p ∈ ps, p.resp = Resp.okay

end Sys2Proof.Machine
end

