-- ==== Sys2Proof/Certificates/Slice0/Obligations.lean ====
section
/-! DEFINITION. The statements for the provers, from the numbered rules of spec/. `transact t s` is what a step does
with the transaction `t` at the head of the queue (`Obligations.StepRunsDecodedInstruction`). -/

open Sys2Proof Sys2Proof.Machine

/-! ### Reset and the step -/

/-- 10_state.md R26: the state after reset, and what a reset event sets, whatever the state before it: every element
of the core is zero, and `H` is not the IV. `R` where it exists. -/
def Obligations.ResetZeroesEveryElement : Prop :=
  (∀ c : Config,
    (State.resetOf c).len = 0x00000000#32 ∧
    (∀ i : Fin 16, (State.resetOf c).blk[i.val] = 0x00000000#32) ∧
    (∀ i : Fin 8, (State.resetOf c).h[i.val] = 0x00000000#32) ∧
    (c.rmdPresent = true → ∀ i : Fin 5, (State.resetOf c).r[i.val] = 0x00000000#32) ∧
    (State.resetOf c).h ≠ Sha.iv) ∧
  State.reset = State.resetOf Config.default ∧
  ∀ (s : State) (rest : List PortEvent), s.pending = .reset :: rest → ∃ t : State,
    step s = .next t ∧ t.len = 0x00000000#32 ∧ (∀ i : Fin 16, t.blk[i.val] = 0x00000000#32) ∧
    (∀ i : Fin 8, t.h[i.val] = 0x00000000#32) ∧
    (s.cfg.rmdPresent = true → ∀ i : Fin 5, t.r[i.val] = 0x00000000#32) ∧ t.cfg = s.cfg

/-- The invariant holds at reset, whatever the core's parameters. -/
def Obligations.ResetMeetsInvariant : Prop := ∀ c : Config, (State.resetOf c).Inv

/-- 10_state.md R11, 20_memory.md R40, 30_encoding.md R53: a step takes the oldest transaction off the queue and is
`exec` of what it decodes to; what does not decode raises its exception. With nothing pending a step changes nothing
(R11 "Between two transactions the core's state does not change"). The queue, the response log and the reset event that
answers nothing and has the effect of `CLEAR` (R27) are the model's own form of the port (logs 2, 3, 6). -/
def Obligations.StepRunsDecodedInstruction : Prop :=
  (∀ (s : State) (t : Transaction) (rest : List PortEvent), s.pending = .transaction t :: rest →
    step s = transact t { s with pending := rest } ∧
    (∀ i : Instr, decode s.cfg t = .ok i → step s = exec i { s with pending := rest }) ∧
    (∀ e : BusError, decode s.cfg t = .error e →
      step s = .next { s with pending := rest, responses := s.responses ++ [⟨e.resp, 0x00000000#32⟩] })) ∧
  (∀ (s : State) (rest : List PortEvent), s.pending = .reset :: rest → ∃ t u : State,
    step s = .next t ∧ t.pending = rest ∧ t.responses = s.responses ∧ exec .clear s = .next u ∧ SameElements u t) ∧
  ∀ s : State, s.pending = [] → step s = .next s

/-- The invariant (log 5; 30_encoding.md R51) is kept by every step, from every state that meets it. -/
def Obligations.StepKeepsInvariant : Prop :=
  ∀ s t : State, s.Inv → step s = .next t → t.Inv

/-- 30_encoding.md R59, 60_exceptions.md R150, R151: every transaction gives a next state and exactly one more
response; it is OKAY, or one of the three errors with read data 0 and every state element as before. -/
def Obligations.EveryTransactionAnswersOnce : Prop :=
  ∀ (s : State) (t : Transaction), ∃ (u : State) (p : Response),
    transact t s = .next u ∧ Answered s u p ∧
    (p.resp = .okay ∨
      ((p = ⟨.errAlign, 0x00000000#32⟩ ∨ p = ⟨.errAddr, 0x00000000#32⟩ ∨ p = ⟨.errCmd, 0x00000000#32⟩) ∧
        SameElements s u))

/-- 20_memory.md R41: a queue of transactions is served in the order issued, with the same result as issuing each one
when the one before it has been answered. -/
def Obligations.QueueServedInIssueOrder : Prop :=
  ∀ (ts : List Transaction) (s : State), s.pending = [] → ∃ t : State,
    Seq.run ts s = some t ∧
    Host.Core.run Sys2Proof.core ts.length { s with pending := ts.map .transaction } = .next t

/-! ### Encodings -/

/-- 30_encoding.md R50: the fields of the 41-bit transaction, no bit more or less, and `wdata` of a read ignored. -/
def Obligations.TransactionBitsAreItsFields : Prop :=
  (∀ t : Transaction, t.toBits.getLsbD 40 = t.we ∧ t.toBits.extractLsb' 32 8 = t.addr ∧
    t.toBits.extractLsb' 0 32 = t.wdata ∧ Transaction.ofBits t.toBits = t) ∧
  (∀ b : BitVec 41, (Transaction.ofBits b).toBits = b) ∧
  (∀ (a : Addr) (w w' : Word) (s : State), transact ⟨false, a, w⟩ s = transact ⟨false, a, w'⟩ s)

/-- 30_encoding.md R53: the decode order, first match wins. -/
def Obligations.DecodeOrderAlignmentMappingKind : Prop :=
  ∀ (c : Config) (t : Transaction),
    (t.addr.toNat % 4 ≠ 0 → decode c t = .error .errAlign) ∧
    (t.addr.toNat % 4 = 0 → UnmappedAddress c t.addr.toNat → decode c t = .error .errAddr) ∧
    (t.addr.toNat % 4 = 0 → ¬ UnmappedAddress c t.addr.toNat → t.we = false → decode c t = .ok (.rd t.addr)) ∧
    (t.addr.toNat % 4 = 0 → ¬ UnmappedAddress c t.addr.toNat → t.we = true → t.addr ≠ 0x00#8 →
      decode c t = .ok (.wr t.addr t.wdata)) ∧
    (t.addr = 0x00#8 → t.we = true →
      (∀ k : Command, decodeCommand c t.wdata = .ok k → decode c t = .ok k.toInstr) ∧
      (∀ e : BusError, decodeCommand c t.wdata = .error e → decode c t = .error e))

/-- 30_encoding.md R55: the command words; every other value is illegal. -/
def Obligations.CommandWordsOfOpcodeMap : Prop :=
  ∀ (c : Config) (w : Word), decode c ⟨true, 0x00#8, w⟩ =
    if w = 0x00000000#32 then .ok .nop
    else if w = 0x00000001#32 then .ok .shaInit
    else if w = 0x00000002#32 then .ok .shaBlock
    else if w = 0x00000003#32 then .ok .midstate
    else if w = 0x00000011#32 ∧ c.rmdPresent = true then .ok .rmdInit
    else if w = 0x00000012#32 ∧ c.rmdPresent = true then .ok .rmdBlock
    else if w = 0x00000020#32 then .ok .clear
    else .error .errCmd

/-- 30_encoding.md R50, R53, R56, R58: a transaction decodes to an instruction exactly when the instruction is legal,
the transaction's 41 bits are in its row of R56 and carry its operands. -/
def Obligations.DecodeIsTheOpcodeTable : Prop :=
  ∀ (c : Config) (t : Transaction) (i : Instr),
    decode c t = .ok i ↔ i.wellFormed c = true ∧ i.row.hits t.toBits = true ∧ OperandsOf t i

/-- Decode and encode agree, through the 41 bits, for every well-formed instruction with every operand. -/
def Obligations.DecodeOfEncodeIsTheInstruction : Prop :=
  ∀ (c : Config) (i : Instr), i.wellFormed c = true →
    decode c (Transaction.ofBits (encode i).toBits) = .ok i

/-- The other direction: what decodes is well-formed, and encoding it gives the transaction back, but for the ignored
`wdata` of a read, which the encoder sets to 0 (30_encoding.md R50, R61). -/
def Obligations.EncodeOfDecodeIsTheTransaction : Prop :=
  ∀ (c : Config) (t : Transaction) (i : Instr), decode c t = .ok i →
    i.wellFormed c = true ∧
    encode i = { t with wdata := if t.we = true then t.wdata else 0x00000000#32 }

/-- Words written out from 30_encoding.md R50, R55, R61 decode to the instructions they stand for. -/
def Obligations.WrittenOutWordsDecode : Prop :=
  decodeTableWord 41 0x08000000000 = some (.rd 0x80#8) ∧
  decodeTableWord 41 0x080deadbeef = some (.rd 0x80#8) ∧
  decodeTableWord 41 0x14061626380 = some (.wr 0x40#8 0x61626380#32) ∧
  decodeTableWord 41 0x10000000000 = some .nop ∧
  decodeTableWord 41 0x10000000001 = some .shaInit ∧
  decodeTableWord 41 0x10000000002 = some .shaBlock ∧
  decodeTableWord 41 0x10000000003 = some .midstate ∧
  decodeTableWord 41 0x10000000011 = some .rmdInit ∧
  decodeTableWord 41 0x10000000012 = some .rmdBlock ∧
  decodeTableWord 41 0x10000000020 = some .clear ∧
  decodeTableWord 41 0x10000000021 = none ∧
  decodeTableWord 41 0x10100000003 = none

/-! ### Responses and exceptions -/

/-- 30_encoding.md R51, R52: what a response carries, its 34 bits and its codes. -/
def Obligations.ResponseDataRule : Prop :=
  (Resp.okay.code = 0#2 ∧ Resp.errAlign.code = 1#2 ∧ Resp.errAddr.code = 2#2 ∧ Resp.errCmd.code = 3#2) ∧
  (∀ p : Response, p.toBits.extractLsb' 32 2 = p.resp.code ∧ p.toBits.extractLsb' 0 32 = p.rdata) ∧
  ∀ (s u : State) (t : Transaction), transact t s = .next u → ∃ p : Response,
    u.responses = s.responses ++ [p] ∧
    (t.we = false → p.resp = .okay → ∃ g : Reg, locate s.cfg t.addr = .ok g ∧ p.rdata = s.readReg g) ∧
    (t.we = true → p.rdata = 0x00000000#32) ∧
    (p.resp ≠ .okay → p.rdata = 0x00000000#32)

/-- 60_exceptions.md R152, R151: a transaction raises `ERR_ALIGN` exactly when `addr[1:0] != 0`, read or write, and
then nothing but the response happens. -/
def Obligations.ErrAlignExactlyWhenMisaligned : Prop :=
  ∀ (s : State) (t : Transaction),
    (t.addr.toNat % 4 ≠ 0 → transact t s = .next { s with responses := s.responses ++ [⟨.errAlign, 0x00000000#32⟩] }) ∧
    (∀ (u : State) (p : Response), transact t s = .next u → u.responses = s.responses ++ [p] → p.resp = .errAlign →
      t.addr.toNat % 4 ≠ 0)

/-- 60_exceptions.md R153, R151, R155: `ERR_ADDR` exactly at the word-aligned unmapped addresses, read or write. -/
def Obligations.ErrAddrExactlyWhenUnmapped : Prop :=
  ∀ (s : State) (t : Transaction),
    (t.addr.toNat % 4 = 0 → UnmappedAddress s.cfg t.addr.toNat →
      transact t s = .next { s with responses := s.responses ++ [⟨.errAddr, 0x00000000#32⟩] }) ∧
    (∀ (u : State) (p : Response), transact t s = .next u → u.responses = s.responses ++ [p] → p.resp = .errAddr →
      t.addr.toNat % 4 = 0 ∧ UnmappedAddress s.cfg t.addr.toNat)

/-- 60_exceptions.md R154, R151: `ERR_CMD` exactly for a write to 0x00 of an illegal command word; a read of 0x00 never
raises it. -/
def Obligations.ErrCmdExactlyForIllegalCommandWords : Prop :=
  ∀ (s : State) (t : Transaction),
    (t.we = true → t.addr = 0x00#8 → IllegalCommandWord s.cfg t.wdata →
      transact t s = .next { s with responses := s.responses ++ [⟨.errCmd, 0x00000000#32⟩] }) ∧
    (∀ (u : State) (p : Response), transact t s = .next u → u.responses = s.responses ++ [p] → p.resp = .errCmd →
      t.we = true ∧ t.addr = 0x00#8 ∧ IllegalCommandWord s.cfg t.wdata)

/-- 60_exceptions.md R158: after an error response the core is in the same state as before the failing transaction, and
it accepts the next transaction normally, with the same effect and the same response as if the failing one had not been issued. -/
def Obligations.ErrorsDoNotLatch : Prop :=
  ∀ (s u v w : State) (t t' : Transaction) (p q : Response),
    transact t s = .next u → u.responses = s.responses ++ [p] → p.resp ≠ .okay →
    transact t' u = .next v → transact t' s = .next w → w.responses = s.responses ++ [q] →
    SameElements s u ∧ SameElements w v ∧ v.responses = u.responses ++ [q]

/-- 60_exceptions.md R151 "Nothing is recorded inside the core": no later transaction depends on the responses given
so far (log 3). -/
def Obligations.ResponsesAreNotRead : Prop :=
  ∀ (s u : State) (ps : List Response) (t : Transaction), transact t s = .next u → ∃ p : Response,
    u.responses = s.responses ++ [p] ∧
    transact t { s with responses := ps } = .next { u with responses := ps ++ [p] }

/-! ### Register reads and writes -/

/-- 40_bus_access.md R71, R73: what `RD addr` does at each of the 256 addresses. -/
def Obligations.ReadAnswersTheAddressedWord : Prop :=
  ∀ (s : State) (a : Addr),
    (a.toNat % 4 ≠ 0 →
      exec (.rd a) s = .next { s with responses := s.responses ++ [⟨.errAlign, 0x00000000#32⟩] }) ∧
    (a.toNat % 4 = 0 → UnmappedAddress s.cfg a.toNat →
      exec (.rd a) s = .next { s with responses := s.responses ++ [⟨.errAddr, 0x00000000#32⟩] }) ∧
    (a.toNat = 0x00 → exec (.rd a) s = .next { s with responses := s.responses ++ [⟨.okay, 0x00000000#32⟩] }) ∧
    (a.toNat = 0x04 → exec (.rd a) s = .next { s with responses := s.responses ++ [⟨.okay, s.len⟩] }) ∧
    (∀ i : Fin 16, a.toNat = 0x40 + 4 * i.val →
      exec (.rd a) s = .next { s with responses := s.responses ++ [⟨.okay, s.blk[i.val]⟩] }) ∧
    (∀ i : Fin 8, a.toNat = 0x80 + 4 * i.val →
      exec (.rd a) s = .next { s with responses := s.responses ++ [⟨.okay, s.h[i.val]⟩] }) ∧
    (∀ i : Fin 5, a.toNat = 0xA0 + 4 * i.val → s.cfg.rmdPresent = true →
      exec (.rd a) s = .next { s with responses := s.responses ++ [⟨.okay, s.r[i.val]⟩] })

/-- 40_bus_access.md R72, R74, R76: what `WR addr, word` does at each of the 256 addresses; at 0x00 it is the command.
The result is the whole next state, so nothing else changes. -/
def Obligations.WriteSetsTheAddressedWord : Prop :=
  ∀ (s : State) (a : Addr) (w : Word),
    (a.toNat % 4 ≠ 0 →
      exec (.wr a w) s = .next { s with responses := s.responses ++ [⟨.errAlign, 0x00000000#32⟩] }) ∧
    (a.toNat % 4 = 0 → UnmappedAddress s.cfg a.toNat →
      exec (.wr a w) s = .next { s with responses := s.responses ++ [⟨.errAddr, 0x00000000#32⟩] }) ∧
    (a.toNat = 0x00 → IllegalCommandWord s.cfg w →
      exec (.wr a w) s = .next { s with responses := s.responses ++ [⟨.errCmd, 0x00000000#32⟩] }) ∧
    (a.toNat = 0x00 → ∀ i : Instr, decode s.cfg ⟨true, 0x00#8, w⟩ = .ok i → exec (.wr a w) s = exec i s) ∧
    (a.toNat = 0x04 → exec (.wr a w) s =
      .next { s with len := w, responses := s.responses ++ [⟨.okay, 0x00000000#32⟩] }) ∧
    (∀ i : Fin 16, a.toNat = 0x40 + 4 * i.val → exec (.wr a w) s =
      .next { s with blk := s.blk.set i.val w, responses := s.responses ++ [⟨.okay, 0x00000000#32⟩] }) ∧
    (∀ i : Fin 8, a.toNat = 0x80 + 4 * i.val → exec (.wr a w) s =
      .next { s with h := s.h.set i.val w, responses := s.responses ++ [⟨.okay, 0x00000000#32⟩] }) ∧
    (∀ i : Fin 5, a.toNat = 0xA0 + 4 * i.val → s.cfg.rmdPresent = true → exec (.wr a w) s =
      .next { s with r := s.r.set i.val w, responses := s.responses ++ [⟨.okay, 0x00000000#32⟩] })

/-- 40_bus_access.md R75: a write of `BLK[i]` sets the four bytes it packs, and the other fifteen words (so every other
byte of the block) keep their values, with everything else. -/
def Obligations.BlockWordWriteSetsFourBytes : Prop :=
  ∀ (s : State) (i : Fin 16) (w : Word), ∃ t : State,
    exec (.wr (BitVec.ofNat 8 (0x40 + 4 * i.val)) w) s = .next t ∧
    blkByte t.blk ⟨4 * i.val, by omega⟩ = w.extractLsb' 24 8 ∧
    blkByte t.blk ⟨4 * i.val + 1, by omega⟩ = w.extractLsb' 16 8 ∧
    blkByte t.blk ⟨4 * i.val + 2, by omega⟩ = w.extractLsb' 8 8 ∧
    blkByte t.blk ⟨4 * i.val + 3, by omega⟩ = w.extractLsb' 0 8 ∧
    (∀ k : Fin 64, k.val / 4 ≠ i.val → blkByte t.blk k = blkByte s.blk k) ∧
    t.blk[i.val] = w ∧ (∀ j : Fin 16, j ≠ i → t.blk[j.val] = s.blk[j.val]) ∧
    t.len = s.len ∧ t.h = s.h ∧ t.r = s.r ∧ Answered s t ⟨.okay, 0x00000000#32⟩

/-- 10_state.md R18: no register is at two addresses, and a write to one element changes no other. -/
def Obligations.NoRegisterAliases : Prop :=
  (∀ (c : Config) (a a' : Addr) (g : Reg), locate c a = .ok g → locate c a' = .ok g → a = a') ∧
  (∀ (c : Config) (g : Reg), (∀ i : Fin 5, g = .r i → c.rmdPresent = true) → locate c g.addr = .ok g) ∧
  ∀ (s t : State) (g g' : Reg) (w : Word), g ≠ .ctrl → g' ≠ g → exec (.wr g.addr w) s = .next t →
    t.readReg g' = s.readReg g'

/-- 40_bus_access.md R78: the second of two writes stands; a read after a write returns the written word; the corner
addresses; `wdata` of a read does not matter. -/
def Obligations.ReadAfterWriteReturnsTheWord : Prop :=
  (∀ (s : State) (g : Reg) (w w' : Word), g ≠ .ctrl → (∀ i : Fin 5, g = .r i → s.cfg.rmdPresent = true) →
    ∃ t u v : State, exec (.wr g.addr w) s = .next t ∧ exec (.wr g.addr w') t = .next u ∧
      exec (.rd g.addr) u = .next v ∧
      v.responses = s.responses ++ [⟨.okay, 0x00000000#32⟩, ⟨.okay, 0x00000000#32⟩, ⟨.okay, w'⟩] ∧
      exec (.wr g.addr w') s = .next { u with responses := s.responses ++ [⟨.okay, 0x00000000#32⟩] }) ∧
  (∀ (s : State) (w : Word),
    exec (.wr 0x08#8 w) s = .next { s with responses := s.responses ++ [⟨.errAddr, 0x00000000#32⟩] } ∧
    exec (.wr 0x41#8 w) s = .next { s with responses := s.responses ++ [⟨.errAlign, 0x00000000#32⟩] } ∧
    exec (.wr 0x09#8 w) s = .next { s with responses := s.responses ++ [⟨.errAlign, 0x00000000#32⟩] }) ∧
  (∀ (s : State) (a : Addr) (w w' : Word), transact ⟨false, a, w⟩ s = transact ⟨false, a, w'⟩ s)

/-- 20_memory.md R38: reads have no side effect and answer alike twice; register writes are idempotent; every command
the build has executes each time it is issued, with a response and an effect of its own: the transforms twice transform
twice, and the others overwrite with the same words again. -/
def Obligations.ReadsPureWritesIdempotent : Prop :=
  (∀ (s : State) (a : Addr) (w : Word), ∃ (u v : State) (p : Response),
    transact ⟨false, a, w⟩ s = .next u ∧ SameElements s u ∧ Answered s u p ∧
    transact ⟨false, a, w⟩ u = .next v ∧ SameElements s v ∧ Answered u v p) ∧
  (∀ (s t u : State) (a : Addr) (w : Word), a ≠ 0x00#8 → exec (.wr a w) s = .next t → exec (.wr a w) t = .next u →
    SameElements t u) ∧
  (∀ (s : State) (k : Command), (k = .rmdInit ∨ k = .rmdBlock → s.cfg.rmdPresent = true) → ∃ t u : State,
    exec k.toInstr s = .next t ∧ exec k.toInstr t = .next u ∧
    Answered s t ⟨.okay, 0x00000000#32⟩ ∧ Answered t u ⟨.okay, 0x00000000#32⟩ ∧
    (k = .nop → SameElements s t ∧ SameElements t u) ∧
    (k = .shaInit → SameElements { s with h := Sha.iv } t ∧ SameElements { t with h := Sha.iv } u) ∧
    (k = .shaBlock → SameElements { s with h := Sha.compress s.h s.blk } t ∧
      SameElements { s with h := Sha.compress (Sha.compress s.h s.blk) s.blk } u) ∧
    (k = .midstate → SameElements { s with h := Sha.midstate s.len s.blk } t ∧
      SameElements { t with h := Sha.midstate s.len s.blk } u) ∧
    (k = .rmdInit → SameElements { s with r := Rmd.iv } t ∧ SameElements { t with r := Rmd.iv } u) ∧
    (k = .rmdBlock → SameElements { s with r := Rmd.compress s.r (Rmd.messageWords s.blk) } t ∧
      SameElements { s with
        r := Rmd.compress (Rmd.compress s.r (Rmd.messageWords s.blk)) (Rmd.messageWords s.blk) } u) ∧
    (k = .clear → ∀ v : State, v = t ∨ v = u → v.len = 0x00000000#32 ∧
      (∀ i : Fin 16, v.blk[i.val] = 0x00000000#32) ∧ (∀ i : Fin 8, v.h[i.val] = 0x00000000#32) ∧
      (s.cfg.rmdPresent = true → ∀ i : Fin 5, v.r[i.val] = 0x00000000#32)))

/-- 20_memory.md R36: the packing of the block's bytes into its words, both ways. -/
def Obligations.BlockBytesPackBigEndian : Prop :=
  ∀ (blk : Vector Word 16) (i : Fin 16),
    blk[i.val] = be32 (blkByte blk ⟨4 * i.val, by omega⟩) (blkByte blk ⟨4 * i.val + 1, by omega⟩)
      (blkByte blk ⟨4 * i.val + 2, by omega⟩) (blkByte blk ⟨4 * i.val + 3, by omega⟩) ∧
    blkByte blk ⟨4 * i.val, by omega⟩ = blk[i.val].extractLsb' 24 8 ∧
    blkByte blk ⟨4 * i.val + 1, by omega⟩ = blk[i.val].extractLsb' 16 8 ∧
    blkByte blk ⟨4 * i.val + 2, by omega⟩ = blk[i.val].extractLsb' 8 8 ∧
    blkByte blk ⟨4 * i.val + 3, by omega⟩ = blk[i.val].extractLsb' 0 8

/-! ### The SHA-256 unit -/

/-- 00_scope.md R8: the rotations, bit by bit, and each undoes the other. -/
def Obligations.RotationsMoveBits : Prop :=
  ∀ (x : Word) (n i : Nat), 0 < n → n < 32 → i < 32 →
    (rotr x n).getLsbD i = x.getLsbD ((i + n) % 32) ∧
    (rotl x n).getLsbD ((i + n) % 32) = x.getLsbD i ∧
    rotl (rotr x n) n = x

/-- 41_sha256.md R84: the six functions bit by bit (`Ch` selects, `Maj` is the majority, a sigma is the exclusive or
of rotated or shifted bits), and the rule's corner cases. -/
def Obligations.ShaFunctionsBitByBit : Prop :=
  (∀ (x y z : Word) (i : Nat), i < 32 →
    (Sha.ch x y z).getLsbD i = (if x.getLsbD i = true then y.getLsbD i else z.getLsbD i) ∧
    (Sha.maj x y z).getLsbD i =
      ((x.getLsbD i && y.getLsbD i) || (x.getLsbD i && z.getLsbD i) || (y.getLsbD i && z.getLsbD i)) ∧
    (Sha.bsig0 x).getLsbD i =
      ((x.getLsbD ((i + 2) % 32) ^^ x.getLsbD ((i + 13) % 32)) ^^ x.getLsbD ((i + 22) % 32)) ∧
    (Sha.bsig1 x).getLsbD i =
      ((x.getLsbD ((i + 6) % 32) ^^ x.getLsbD ((i + 11) % 32)) ^^ x.getLsbD ((i + 25) % 32)) ∧
    (Sha.ssig0 x).getLsbD i =
      ((x.getLsbD ((i + 7) % 32) ^^ x.getLsbD ((i + 18) % 32)) ^^ (if i < 29 then x.getLsbD (i + 3) else false)) ∧
    (Sha.ssig1 x).getLsbD i =
      ((x.getLsbD ((i + 17) % 32) ^^ x.getLsbD ((i + 19) % 32)) ^^ (if i < 22 then x.getLsbD (i + 10) else false))) ∧
  (∀ x y z : Word, Sha.ch 0xffffffff#32 y z = y ∧ Sha.ch 0x00000000#32 y z = z ∧ Sha.maj x x z = x) ∧
  Sha.ch 0#32 0#32 0#32 = 0#32 ∧ Sha.maj 0#32 0#32 0#32 = 0#32 ∧ Sha.bsig0 0#32 = 0#32 ∧ Sha.bsig1 0#32 = 0#32 ∧
  Sha.ssig0 0#32 = 0#32 ∧ Sha.ssig1 0#32 = 0#32

/-- 41_sha256.md R81, R82: `IV[i]` and `K[t]` are the first 32 bits of the fractional parts of the square root of the
i-th and the cube root of the t-th prime. -/
def Obligations.ShaConstantsFromPrimeRoots : Prop :=
  (∀ i : Fin 8, ∃ x : Nat,
    x ^ 2 ≤ Nat.nth Nat.Prime i.val * 2 ^ 64 ∧ Nat.nth Nat.Prime i.val * 2 ^ 64 < (x + 1) ^ 2 ∧
    Sha.iv[i.val] = BitVec.ofNat 32 x) ∧
  ∀ t : Fin 64, ∃ x : Nat,
    x ^ 3 ≤ Nat.nth Nat.Prime t.val * 2 ^ 96 ∧ Nat.nth Nat.Prime t.val * 2 ^ 96 < (x + 1) ^ 3 ∧
    Sha.k t.val = BitVec.ofNat 32 x

/-- 41_sha256.md R90, R81: `SHA_INIT` loads the eight words of the IV and changes nothing else. -/
def Obligations.ShaInitLoadsIv : Prop :=
  ∀ s : State, exec .shaInit s = .next { s with
    h := #v[0x6a09e667#32, 0xbb67ae85#32, 0x3c6ef372#32, 0xa54ff53a#32, 0x510e527f#32, 0x9b05688c#32, 0x1f83d9ab#32,
      0x5be0cd19#32]
    responses := s.responses ++ [⟨.okay, 0x00000000#32⟩] }

/-- 41_sha256.md R85, R86, R88, R91: `SHA_BLOCK` is the transform: there are a schedule and working variables that
satisfy the equations of R85 and R86 over the block words, and `H` takes the sums; nothing else changes. -/
def Obligations.ShaBlockIsTheTransform : Prop :=
  ∀ s : State, ∃ (W : Nat → Word) (v : Nat → Sha.Work),
    (∀ t : Fin 16, W t.val = s.blk[t.val]) ∧
    (∀ t : Nat, 16 ≤ t → t ≤ 63 →
      W t = Sha.ssig1 (W (t - 2)) + W (t - 7) + Sha.ssig0 (W (t - 15)) + W (t - 16)) ∧
    v 0 = ⟨s.h[0], s.h[1], s.h[2], s.h[3], s.h[4], s.h[5], s.h[6], s.h[7]⟩ ∧
    (∀ t : Nat, t ≤ 63 → ∃ T1 T2 : Word,
      T1 = (v t).h + Sha.bsig1 (v t).e + Sha.ch (v t).e (v t).f (v t).g + Sha.k t + W t ∧
      T2 = Sha.bsig0 (v t).a + Sha.maj (v t).a (v t).b (v t).c ∧
      v (t + 1) = ⟨T1 + T2, (v t).a, (v t).b, (v t).c, (v t).d + T1, (v t).e, (v t).f, (v t).g⟩) ∧
    exec .shaBlock s = .next { s with
      h := #v[s.h[0] + (v 64).a, s.h[1] + (v 64).b, s.h[2] + (v 64).c, s.h[3] + (v 64).d,
        s.h[4] + (v 64).e, s.h[5] + (v 64).f, s.h[6] + (v 64).g, s.h[7] + (v 64).h]
      responses := s.responses ++ [⟨.okay, 0x00000000#32⟩] }

/-- 41_sha256.md R89, R93, R94: `MIDSTATE` transforms, from the IV, the padded first block, whose 64 bytes are those of
R89; it changes `H` alone. -/
def Obligations.MidstateTransformsThePaddedBlock : Prop :=
  ∀ s : State, ∃ p : Vector Byte 64,
    (∀ k : Fin 64, k.val < 60 ∨ 55 < s.len.toNat →
      p[k.val] = if k.val < s.len.toNat then blkByte s.blk k else if k.val = s.len.toNat then 0x80#8 else 0x00#8) ∧
    (s.len.toNat ≤ 55 → be32 p[60] p[61] p[62] p[63] = BitVec.ofNat 32 (8 * s.len.toNat)) ∧
    exec .midstate s = .next { s with
      h := Sha.compress Sha.iv (Vector.ofFn fun i : Fin 16 =>
        be32 (p[4 * i.val]'(by omega)) (p[4 * i.val + 1]'(by omega)) (p[4 * i.val + 2]'(by omega))
          (p[4 * i.val + 3]'(by omega)))
      responses := s.responses ++ [⟨.okay, 0x00000000#32⟩] }

/-- 41_sha256.md R95: the result depends on `LEN` and the first `min(LEN, 64)` block bytes and on nothing else. -/
def Obligations.MidstateIsStateless : Prop :=
  ∀ s s' : State, s'.len = s.len → (∀ k : Fin 64, k.val < s.len.toNat → blkByte s'.blk k = blkByte s.blk k) →
    ∃ t t' : State, exec .midstate s = .next t ∧ exec .midstate s' = .next t' ∧ t'.h = t.h

/-- 41_sha256.md R96(c): from 64 bytes on `MIDSTATE` is `SHA_INIT` followed by `SHA_BLOCK`, whatever `LEN` is. -/
def Obligations.MidstateOfLongInputIsInitThenBlock : Prop :=
  ∀ s : State, 64 ≤ s.len.toNat → ∃ t u v : State,
    exec .midstate s = .next t ∧ exec .shaInit s = .next u ∧ exec .shaBlock u = .next v ∧
    t.h = v.h ∧ t.h = Sha.compress Sha.iv s.blk

/-- 41_sha256.md R101: the padding at 55 and at 56 bytes. -/
def Obligations.PaddingBoundaryAt55And56 : Prop :=
  ∀ b : Vector Byte 64,
    ((Sha.padFirstBlock 55#32 b)[55] = 0x80#8 ∧
      (∀ k : Fin 64, 56 ≤ k.val → k.val ≤ 59 → (Sha.padFirstBlock 55#32 b)[k.val] = 0x00#8) ∧
      (Sha.padFirstBlock 55#32 b)[60] = 0x00#8 ∧ (Sha.padFirstBlock 55#32 b)[61] = 0x00#8 ∧
      (Sha.padFirstBlock 55#32 b)[62] = 0x01#8 ∧ (Sha.padFirstBlock 55#32 b)[63] = 0xb8#8) ∧
    ((Sha.padFirstBlock 56#32 b)[56] = 0x80#8 ∧
      ∀ k : Fin 64, 57 ≤ k.val → (Sha.padFirstBlock 56#32 b)[k.val] = 0x00#8)

/-- 41_sha256.md R97: the two serialisations of the midstate. -/
def Obligations.MidstateBytesOrder : Prop :=
  ∀ (h : Vector Word 8) (i : Fin 8) (j : Fin 4),
    (Sha.midstateBytes .be h).length = 32 ∧ (Sha.midstateBytes .le h).length = 32 ∧
    (Sha.midstateBytes .be h)[4 * i.val + j.val]? = some (h[i.val].extractLsb' (24 - 8 * j.val) 8) ∧
    (Sha.midstateBytes .le h)[4 * i.val + j.val]? = some (h[i.val].extractLsb' (8 * j.val) 8)

/-- 41_sha256.md R98: hardware and document agree. -/
def Obligations.MidstateAgreesWithComputeMidstate : Prop :=
  ∀ (s : State) (m : List Byte), m.length < 2 ^ 32 → s.len = BitVec.ofNat 32 m.length →
    (∀ (k : Fin 64) (hk : k.val < m.length), blkByte s.blk k = m[k.val]) →
    ∃ t : State, exec .midstate s = .next t ∧
      ∀ o : WordOrder, Sha.midstateBytes o t.h = Seq.computeMidstate o m

/-- 41_sha256.md R99: up to 55 bytes the midstate, in the default byte order, is the finished SHA-256 digest. -/
def Obligations.ShortMidstateIsTheDigest : Prop :=
  ∀ m : List Byte, m.length ≤ 55 → Seq.computeMidstate .be m = Seq.sha256 m

/-- 41_sha256.md R100, R96(c): input bytes at index 64 and above cannot change the result. -/
def Obligations.OnlyTheFirstBlockParticipates : Prop :=
  ∀ (o : WordOrder) (m m' : List Byte), 64 ≤ m.length → 64 ≤ m'.length → m.take 64 = m'.take 64 →
    Seq.computeMidstate o m = Seq.computeMidstate o m'

/-! ### The RIPEMD-160 unit -/

/-- 42_ripemd160.md R116: the unit's message words are the little-endian words of the block bytes. -/
def Obligations.RmdMessageWordsAreLittleEndian : Prop :=
  ∀ (blk : Vector Word 16) (i : Fin 16),
    (Rmd.messageWords blk)[i.val] = le32 (blkByte blk ⟨4 * i.val, by omega⟩) (blkByte blk ⟨4 * i.val + 1, by omega⟩)
      (blkByte blk ⟨4 * i.val + 2, by omega⟩) (blkByte blk ⟨4 * i.val + 3, by omega⟩) ∧
    (Rmd.messageWords blk)[i.val] = bswap blk[i.val]

/-- 42_ripemd160.md R112, R113, R114: the five constants of each line and the 80 entries of each of the four tables, row
by row as the rules list them; each row of the word selections is a permutation of 0..15, every rotation amount is
between 5 and 15. The non-zero constants are `floor(2^30 * sqrt(n))` and `floor(2^30 * cbrt(n))` for n = 2, 3, 5, 7 (the
file's opening paragraph). -/
def Obligations.RmdTablesShape : Prop :=
  ((List.range 5).map Rmd.kl = [0x00000000#32, 0x5a827999#32, 0x6ed9eba1#32, 0x8f1bbcdc#32, 0xa953fd4e#32] ∧
    (List.range 5).map Rmd.kr = [0x50a28be6#32, 0x5c4dd124#32, 0x6d703ef3#32, 0x7a6d76e9#32, 0x00000000#32]) ∧
  ((List.range 80).map fun j => (Rmd.rl j).val) =
    [0, 1, 2, 3, 4, 5, 6, 7, 8, 9, 10, 11, 12, 13, 14, 15] ++
    [7, 4, 13, 1, 10, 6, 15, 3, 12, 0, 9, 5, 2, 14, 11, 8] ++
    [3, 10, 14, 4, 9, 15, 8, 1, 2, 7, 0, 6, 13, 11, 5, 12] ++
    [1, 9, 11, 10, 0, 8, 12, 4, 13, 3, 7, 15, 14, 5, 6, 2] ++
    [4, 0, 5, 9, 7, 12, 2, 10, 14, 1, 3, 8, 11, 6, 15, 13] ∧
  ((List.range 80).map fun j => (Rmd.rr j).val) =
    [5, 14, 7, 0, 9, 2, 11, 4, 13, 6, 15, 8, 1, 10, 3, 12] ++
    [6, 11, 3, 7, 0, 13, 5, 10, 14, 15, 8, 12, 4, 9, 1, 2] ++
    [15, 5, 1, 3, 7, 14, 6, 9, 11, 8, 12, 2, 10, 0, 4, 13] ++
    [8, 6, 4, 1, 3, 11, 15, 0, 5, 12, 2, 13, 9, 7, 10, 14] ++
    [12, 15, 10, 4, 1, 5, 8, 7, 6, 2, 13, 14, 0, 3, 9, 11] ∧
  (List.range 80).map Rmd.sl =
    [11, 14, 15, 12, 5, 8, 7, 9, 11, 13, 14, 15, 6, 7, 9, 8] ++
    [7, 6, 8, 13, 11, 9, 7, 15, 7, 12, 15, 9, 11, 7, 13, 12] ++
    [11, 13, 6, 7, 14, 9, 13, 15, 14, 8, 13, 6, 5, 12, 7, 5] ++
    [11, 12, 14, 15, 14, 15, 9, 8, 9, 14, 5, 6, 8, 6, 5, 12] ++
    [9, 15, 5, 11, 6, 8, 13, 12, 5, 12, 13, 14, 11, 8, 5, 6] ∧
  (List.range 80).map Rmd.sr =
    [8, 9, 9, 11, 13, 15, 15, 5, 7, 7, 8, 11, 14, 14, 12, 6] ++
    [9, 13, 15, 7, 12, 8, 9, 11, 7, 7, 12, 7, 6, 15, 13, 11] ++
    [9, 7, 15, 11, 8, 6, 6, 14, 12, 13, 5, 14, 13, 13, 7, 5] ++
    [15, 5, 8, 11, 14, 14, 6, 14, 6, 9, 12, 9, 12, 5, 15, 8] ++
    [8, 5, 12, 9, 12, 5, 14, 6, 8, 13, 6, 5, 15, 13, 11, 11] ∧
  (∀ g : Fin 5, ((List.range 16).map fun i => Rmd.rl (16 * g.val + i)).Perm (List.finRange 16) ∧
    ((List.range 16).map fun i => Rmd.rr (16 * g.val + i)).Perm (List.finRange 16)) ∧
  (∀ j : Fin 80, 5 ≤ Rmd.sl j.val ∧ Rmd.sl j.val ≤ 15 ∧ 5 ≤ Rmd.sr j.val ∧ Rmd.sr j.val ≤ 15) ∧
  ∀ i : Fin 4,
    (Rmd.kl (i.val + 1)).toNat ^ 2 ≤ [2, 3, 5, 7][i.val] * 2 ^ 60 ∧
    [2, 3, 5, 7][i.val] * 2 ^ 60 < ((Rmd.kl (i.val + 1)).toNat + 1) ^ 2 ∧
    (Rmd.kr i.val).toNat ^ 3 ≤ [2, 3, 5, 7][i.val] * 2 ^ 90 ∧
    [2, 3, 5, 7][i.val] * 2 ^ 90 < ((Rmd.kr i.val).toNat + 1) ^ 3

/-- 42_ripemd160.md R115: the five functions bit by bit: parity, selection by the first word, selection by the third. -/
def Obligations.RmdFunctionsBitByBit : Prop :=
  ∀ (x y z : Word) (i : Nat), i < 32 →
    (Rmd.f 0 x y z).getLsbD i = ((x.getLsbD i ^^ y.getLsbD i) ^^ z.getLsbD i) ∧
    (Rmd.f 1 x y z).getLsbD i = (if x.getLsbD i = true then y.getLsbD i else z.getLsbD i) ∧
    (Rmd.f 2 x y z).getLsbD i = ((x.getLsbD i || !y.getLsbD i) ^^ z.getLsbD i) ∧
    (Rmd.f 3 x y z).getLsbD i = (if z.getLsbD i = true then x.getLsbD i else y.getLsbD i) ∧
    (Rmd.f 4 x y z).getLsbD i = (x.getLsbD i ^^ (y.getLsbD i || !z.getLsbD i))

/-- 42_ripemd160.md R118, R111: `RMD_INIT` loads the five words of the RIPEMD-160 initial value and changes nothing
else; without the unit it raises `ERR_CMD`. -/
def Obligations.RmdInitLoadsRiv : Prop :=
  ∀ s : State,
    (s.cfg.rmdPresent = true → exec .rmdInit s = .next { s with
      r := #v[0x67452301#32, 0xefcdab89#32, 0x98badcfe#32, 0x10325476#32, 0xc3d2e1f0#32]
      responses := s.responses ++ [⟨.okay, 0x00000000#32⟩] }) ∧
    (s.cfg.rmdPresent = false →
      exec .rmdInit s = .next { s with responses := s.responses ++ [⟨.errCmd, 0x00000000#32⟩] })

/-- 42_ripemd160.md R116, R117, R119: `RMD_BLOCK` is the compression: there are two lines that satisfy the equations of
R117 over the byte-swapped block words, and `R` takes the combination; nothing else changes. Without the unit it raises
`ERR_CMD`. -/
def Obligations.RmdBlockIsTheCompression : Prop :=
  ∀ s : State,
    (s.cfg.rmdPresent = true → ∃ (X : Vector Word 16) (l r : Nat → Rmd.Line),
      (∀ i : Fin 16, X[i.val] = bswap s.blk[i.val]) ∧
      l 0 = ⟨s.r[0], s.r[1], s.r[2], s.r[3], s.r[4]⟩ ∧ r 0 = ⟨s.r[0], s.r[1], s.r[2], s.r[3], s.r[4]⟩ ∧
      (∀ j : Nat, j ≤ 79 → ∃ T T' : Word,
        T = rotl ((l j).a + Rmd.f (j / 16) (l j).b (l j).c (l j).d + X[(Rmd.rl j).val] + Rmd.kl (j / 16)) (Rmd.sl j) +
          (l j).e ∧
        l (j + 1) = ⟨(l j).e, T, (l j).b, rotl (l j).c 10, (l j).d⟩ ∧
        T' = rotl ((r j).a + Rmd.f (4 - j / 16) (r j).b (r j).c (r j).d + X[(Rmd.rr j).val] + Rmd.kr (j / 16))
          (Rmd.sr j) + (r j).e ∧
        r (j + 1) = ⟨(r j).e, T', (r j).b, rotl (r j).c 10, (r j).d⟩) ∧
      exec .rmdBlock s = .next { s with
        r := #v[s.r[1] + (l 80).c + (r 80).d, s.r[2] + (l 80).d + (r 80).e, s.r[3] + (l 80).e + (r 80).a,
          s.r[4] + (l 80).a + (r 80).b, s.r[0] + (l 80).b + (r 80).c]
        responses := s.responses ++ [⟨.okay, 0x00000000#32⟩] }) ∧
    (s.cfg.rmdPresent = false →
      exec .rmdBlock s = .next { s with responses := s.responses ++ [⟨.errCmd, 0x00000000#32⟩] })

/-- 42_ripemd160.md R110: the units share `BLK` and nothing else: no RIPEMD-160 command reads or writes `H` or `LEN`,
no SHA-256 command reads or writes `R`. -/
def Obligations.UnitsShareOnlyTheBlock : Prop :=
  (∀ (s t : State) (h : Vector Word 8) (n : Word) (i : Instr), i = .rmdInit ∨ i = .rmdBlock →
    exec i s = .next t → t.h = s.h ∧ t.len = s.len ∧
      exec i { s with h := h, len := n } = .next { t with h := h, len := n }) ∧
  (∀ (s t : State) (r : Vector Word 5) (i : Instr), i = .shaInit ∨ i = .shaBlock ∨ i = .midstate →
    exec i s = .next t → t.r = s.r ∧ exec i { s with r := r } = .next { t with r := r })

/-- 42_ripemd160.md R120: without the unit the two commands are illegal and the five `R` addresses are unmapped;
nothing else of the core changes. The last clause's `u.r = s.r` is the model's own and no rule's: on such a core the
field is storage the hardware does not have, and no transaction touches it (DESIGN CHOICE, log 5). -/
def Obligations.AbsentUnitOnlyRemovesItsOwn : Prop :=
  ∀ (s : State) (t : Transaction), s.cfg.rmdPresent = false →
    (t.we = true → t.addr = 0x00#8 → t.wdata = 0x00000011#32 ∨ t.wdata = 0x00000012#32 →
      transact t s = .next { s with responses := s.responses ++ [⟨.errCmd, 0x00000000#32⟩] }) ∧
    (∀ i : Fin 5, t.addr.toNat = 0xA0 + 4 * i.val →
      transact t s = .next { s with responses := s.responses ++ [⟨.errAddr, 0x00000000#32⟩] }) ∧
    (¬ (t.we = true ∧ t.addr = 0x00#8 ∧ (t.wdata = 0x00000011#32 ∨ t.wdata = 0x00000012#32)) →
      (∀ i : Fin 5, t.addr.toNat ≠ 0xA0 + 4 * i.val) →
      ∃ u v : State, transact t s = .next u ∧ transact t { s with cfg := { s.cfg with rmdPresent := true } } = .next v ∧
        u.len = v.len ∧ u.blk = v.blk ∧ u.h = v.h ∧ u.responses = v.responses ∧ u.r = s.r)

/-! ### Whole-core commands and whole-machine rules -/

/-- 43_system.md R130: `NOP` answers and changes nothing. -/
def Obligations.NopOnlyAnswers : Prop :=
  ∀ s : State, exec .nop s = .next { s with responses := s.responses ++ [⟨.okay, 0x00000000#32⟩] }

/-- 43_system.md R131: `CLEAR` leaves the state elements of the reset state, `R` where it exists. -/
def Obligations.ClearLeavesTheResetElements : Prop :=
  ∀ s : State, ∃ t : State, exec .clear s = .next t ∧ Answered s t ⟨.okay, 0x00000000#32⟩ ∧
    t.len = 0x00000000#32 ∧ (∀ i : Fin 16, t.blk[i.val] = 0x00000000#32) ∧ (∀ i : Fin 8, t.h[i.val] = 0x00000000#32) ∧
    (s.cfg.rmdPresent = true → ∀ i : Fin 5, t.r[i.val] = 0x00000000#32) ∧
    (s.cfg.rmdPresent = true → SameElements (State.resetOf s.cfg) t) ∧
    (∃ u : State, exec .clear t = .next u ∧ SameElements t u)

/-- 60_exceptions.md R166: no command fails on its data. -/
def Obligations.NoCommandFailsOnItsData : Prop :=
  ∀ (s : State) (k : Command), (k = .rmdInit ∨ k = .rmdBlock → s.cfg.rmdPresent = true) →
    ∃ t : State, exec k.toInstr s = .next t ∧ Answered s t ⟨.okay, 0x00000000#32⟩

/-- 10_state.md R24: the input is immutable to the core: no hash command and no `NOP` writes `BLK` or `LEN`, and a step
that changes one of them served a `WR`, a `CLEAR` or a reset. -/
def Obligations.InputIsImmutableToTheCore : Prop :=
  (∀ (s t : State) (i : Instr),
    i = .shaInit ∨ i = .shaBlock ∨ i = .midstate ∨ i = .rmdInit ∨ i = .rmdBlock ∨ i = .nop →
    exec i s = .next t → t.blk = s.blk ∧ t.len = s.len) ∧
  (∀ s t : State, step s = .next t → t.blk ≠ s.blk ∨ t.len ≠ s.len →
    ∃ (e : PortEvent) (rest : List PortEvent), s.pending = e :: rest ∧
      (e = .reset ∨ ∃ x : Transaction, e = .transaction x ∧
        (decode s.cfg x = .ok .clear ∨ decode s.cfg x = .ok (.wr x.addr x.wdata))))

/-- 10_state.md R25: the write summary: an instruction a transaction decodes to leaves every word that its row of the
table does not name; it leaves the host's queue and the build; a rejected transaction writes nothing. That the
storage of `R` keeps its words on a core without the unit is the model's own clause (log 5). -/
def Obligations.WriteSummary : Prop :=
  ∀ (s t : State) (x : Transaction), transact x s = .next t →
    t.pending = s.pending ∧ t.cfg = s.cfg ∧
    (∀ e : BusError, decode s.cfg x = .error e → SameElements s t) ∧
    (∀ i : Instr, decode s.cfg x = .ok i →
      (¬ (writeRow s.cfg i).len → t.len = s.len) ∧
      (∀ j : Fin 16, ¬ (writeRow s.cfg i).blk j → t.blk[j.val] = s.blk[j.val]) ∧
      (∀ j : Fin 8, ¬ (writeRow s.cfg i).h j → t.h[j.val] = s.h[j.val]) ∧
      (∀ j : Fin 5, ¬ (writeRow s.cfg i).r j → t.r[j.val] = s.r[j.val]))

/-- 00_scope.md R6: no register, no command and no bus value depends on `MIDSTATE_WORD_ORDER`. -/
def Obligations.WordOrderNeverReachesTheCore : Prop :=
  ∀ (s u : State) (t : Transaction) (o : WordOrder), transact t s = .next u →
    transact t { s with cfg := { s.cfg with midstateWordOrder := o } } =
      .next { u with cfg := { u.cfg with midstateWordOrder := o } }

/-! ### Host sequences -/

/-- 44_host_sequences.md R135: the SHA-256 padding: the least zero fill, the size, the 64-bit big-endian bit length,
and equality with the document's working buffer below 2^29 bytes. -/
def Obligations.Sha256PaddingRule : Prop :=
  ∀ m : List Byte, m.length < 2 ^ 61 →
    (∃ z : Nat, (m.length + 1 + z + 8) % 64 = 0 ∧ (∀ y : Nat, (m.length + 1 + y + 8) % 64 = 0 → z ≤ y) ∧
      ∃ len8 : List Byte, Seq.pad256 m = m ++ [0x80#8] ++ List.replicate z 0x00#8 ++ len8 ∧ len8.length = 8 ∧
        len8.foldl (fun n b => 256 * n + b.toNat) 0 = 8 * m.length) ∧
    (Seq.pad256 m).length = 64 * ((m.length + 9 + 63) / 64) ∧
    (m.length < 2 ^ 29 → Seq.pad256 m = Seq.workingBuffer m)

/-- 44_host_sequences.md R137: the RIPEMD-160 padding, with the little-endian bit length. -/
def Obligations.Rmd160PaddingRule : Prop :=
  ∀ m : List Byte, m.length < 2 ^ 61 →
    ∃ (z : Nat) (len8 : List Byte), (m.length + 1 + z + 8) % 64 = 0 ∧
      (∀ y : Nat, (m.length + 1 + y + 8) % 64 = 0 → z ≤ y) ∧
      Seq.pad160 m = m ++ [0x80#8] ++ List.replicate z 0x00#8 ++ len8 ∧ len8.length = 8 ∧
      len8.foldr (fun b n => 256 * n + b.toNat) 0 = 8 * m.length

/-- 44_host_sequences.md R136, R144: the sequence `SHA256 m` meets no error and reads back the digest, from any
state. -/
def Obligations.Sha256SequenceGivesTheDigest : Prop :=
  ∀ (m : List Byte) (s : State), m.length < 2 ^ 61 → ∃ t : State,
    Seq.runSha256 m s = some (Seq.sha256 m, t) ∧ NoError s t ∧
    t.len = s.len ∧ t.r = s.r ∧ t.cfg = s.cfg ∧ t.pending = s.pending

/-- 44_host_sequences.md R138, R144: the sequence `RMD160 m`, on a core with the unit. -/
def Obligations.Rmd160SequenceGivesTheDigest : Prop :=
  ∀ (m : List Byte) (s : State), m.length < 2 ^ 61 → s.cfg.rmdPresent = true → ∃ t : State,
    Seq.runRmd160 m s = some (Seq.rmd160 m, t) ∧ NoError s t ∧
    t.len = s.len ∧ t.h = s.h ∧ t.cfg = s.cfg ∧ t.pending = s.pending

/-- 44_host_sequences.md R139, 41_sha256.md R98: the sequence `MIDSTATE_OF m` gives the document's
`computeMidstate(m)` for every input shorter than 2^32 bytes, whatever the buffer held before. -/
def Obligations.MidstateOfSequenceGivesComputeMidstate : Prop :=
  ∀ (m : List Byte) (s : State), m.length < 2 ^ 32 → ∃ t : State,
    Seq.runMidstateOf m s = some (Seq.computeMidstate s.cfg.midstateWordOrder m, t) ∧ NoError s t ∧
    t.r = s.r ∧ t.cfg = s.cfg ∧ t.pending = s.pending

/-- 44_host_sequences.md R140: resuming from the midstate words of the first 64 bytes gives the digest of the whole
message. -/
def Obligations.ResumeFinishesTheDigest : Prop :=
  ∀ (m : List Byte) (s s0 t0 : State), 64 ≤ m.length → m.length < 2 ^ 61 →
    64 ≤ s0.len.toNat → s0.blk = Seq.blockAt m 0 → exec .midstate s0 = .next t0 →
    ∃ t : State, Seq.runResume t0.h m s = some (Seq.sha256 m, t) ∧ NoError s t

/-- 44_host_sequences.md R141, R143: the four hash runs of `ADDRPAYLOAD` give `pubkeyToAddressPayload(pubkey)`. -/
def Obligations.AddrPayloadSequence : Prop :=
  ∀ (pubkey : List Byte) (s : State), pubkey.length < 2 ^ 61 → s.cfg.rmdPresent = true → ∃ t : State,
    Seq.runAddrPayload pubkey s = some (Seq.addressPayload pubkey, t) ∧ NoError s t

/-- 44_host_sequences.md R142: the layout of the payload. -/
def Obligations.AddressPayloadLayout : Prop :=
  ∀ pubkey : List Byte,
    (Seq.addressPayload pubkey).length = 25 ∧ (Seq.addressPayload pubkey)[0]? = some 0x00#8 ∧
    ((Seq.addressPayload pubkey).drop 1).take 20 = Seq.rmd160 (Seq.sha256 pubkey) ∧
    (Seq.addressPayload pubkey).drop 21 = (Seq.sha256 (Seq.sha256 ((Seq.addressPayload pubkey).take 21))).take 4
end

