-- ==== Sys2Proof/Laws/State.lean ====
section
/-! SUPPORT. One lemma per field of `State` and per operation that updates it, so that no proof unfolds a record update. -/

namespace Sys2Proof.Machine

/-! ### `respond` -/

@[simp] theorem State.respond_len (s : State) (d : Word) : (s.respond d).len = s.len := rfl
@[simp] theorem State.respond_blk (s : State) (d : Word) : (s.respond d).blk = s.blk := rfl
@[simp] theorem State.respond_h (s : State) (d : Word) : (s.respond d).h = s.h := rfl
@[simp] theorem State.respond_r (s : State) (d : Word) : (s.respond d).r = s.r := rfl
@[simp] theorem State.respond_cfg (s : State) (d : Word) : (s.respond d).cfg = s.cfg := rfl
@[simp] theorem State.respond_pending (s : State) (d : Word) : (s.respond d).pending = s.pending := rfl
@[simp] theorem State.respond_responses (s : State) (d : Word) : (s.respond d).responses = s.responses ++ [{ resp := .okay, rdata := d }] := rfl

/-! ### `raise` -/

@[simp] theorem State.raise_len (s : State) (e : BusError) : (s.raise e).len = s.len := rfl
@[simp] theorem State.raise_blk (s : State) (e : BusError) : (s.raise e).blk = s.blk := rfl
@[simp] theorem State.raise_h (s : State) (e : BusError) : (s.raise e).h = s.h := rfl
@[simp] theorem State.raise_r (s : State) (e : BusError) : (s.raise e).r = s.r := rfl
@[simp] theorem State.raise_cfg (s : State) (e : BusError) : (s.raise e).cfg = s.cfg := rfl
@[simp] theorem State.raise_pending (s : State) (e : BusError) : (s.raise e).pending = s.pending := rfl
@[simp] theorem State.raise_responses (s : State) (e : BusError) : (s.raise e).responses = s.responses ++ [e.response] := rfl

/-! ### `issue` -/

@[simp] theorem State.issue_len (s : State) (t : Transaction) : (s.issue t).len = s.len := rfl
@[simp] theorem State.issue_blk (s : State) (t : Transaction) : (s.issue t).blk = s.blk := rfl
@[simp] theorem State.issue_h (s : State) (t : Transaction) : (s.issue t).h = s.h := rfl
@[simp] theorem State.issue_r (s : State) (t : Transaction) : (s.issue t).r = s.r := rfl
@[simp] theorem State.issue_cfg (s : State) (t : Transaction) : (s.issue t).cfg = s.cfg := rfl
@[simp] theorem State.issue_pending (s : State) (t : Transaction) : (s.issue t).pending = .transaction t :: s.pending := rfl
@[simp] theorem State.issue_responses (s : State) (t : Transaction) : (s.issue t).responses = s.responses := rfl

/-! ### `zeroAll` -/

@[simp] theorem State.zeroAll_len (s : State) : s.zeroAll.len = 0x00000000#32 := rfl
@[simp] theorem State.zeroAll_blk (s : State) : s.zeroAll.blk = Vector.replicate 16 0x00000000#32 := rfl
@[simp] theorem State.zeroAll_h (s : State) : s.zeroAll.h = Vector.replicate 8 0x00000000#32 := rfl
@[simp] theorem State.zeroAll_r (s : State) : s.zeroAll.r = if s.cfg.rmdPresent then Vector.replicate 5 0x00000000#32 else s.r := rfl
@[simp] theorem State.zeroAll_cfg (s : State) : s.zeroAll.cfg = s.cfg := rfl
@[simp] theorem State.zeroAll_pending (s : State) : s.zeroAll.pending = s.pending := rfl
@[simp] theorem State.zeroAll_responses (s : State) : s.zeroAll.responses = s.responses := rfl

/-! ### `writeReg_ctrl` -/

@[simp] theorem State.writeReg_ctrl_len (s : State) (w : Word) : (s.writeReg .ctrl w).len = s.len := rfl
@[simp] theorem State.writeReg_ctrl_blk (s : State) (w : Word) : (s.writeReg .ctrl w).blk = s.blk := rfl
@[simp] theorem State.writeReg_ctrl_h (s : State) (w : Word) : (s.writeReg .ctrl w).h = s.h := rfl
@[simp] theorem State.writeReg_ctrl_r (s : State) (w : Word) : (s.writeReg .ctrl w).r = s.r := rfl
@[simp] theorem State.writeReg_ctrl_cfg (s : State) (w : Word) : (s.writeReg .ctrl w).cfg = s.cfg := rfl
@[simp] theorem State.writeReg_ctrl_pending (s : State) (w : Word) : (s.writeReg .ctrl w).pending = s.pending := rfl
@[simp] theorem State.writeReg_ctrl_responses (s : State) (w : Word) : (s.writeReg .ctrl w).responses = s.responses := rfl

/-! ### `writeReg_len` -/

@[simp] theorem State.writeReg_len_len (s : State) (w : Word) : (s.writeReg .len w).len = w := rfl
@[simp] theorem State.writeReg_len_blk (s : State) (w : Word) : (s.writeReg .len w).blk = s.blk := rfl
@[simp] theorem State.writeReg_len_h (s : State) (w : Word) : (s.writeReg .len w).h = s.h := rfl
@[simp] theorem State.writeReg_len_r (s : State) (w : Word) : (s.writeReg .len w).r = s.r := rfl
@[simp] theorem State.writeReg_len_cfg (s : State) (w : Word) : (s.writeReg .len w).cfg = s.cfg := rfl
@[simp] theorem State.writeReg_len_pending (s : State) (w : Word) : (s.writeReg .len w).pending = s.pending := rfl
@[simp] theorem State.writeReg_len_responses (s : State) (w : Word) : (s.writeReg .len w).responses = s.responses := rfl

/-! ### `writeReg_blk` -/

@[simp] theorem State.writeReg_blk_len (s : State) (i : Fin 16) (w : Word) : (s.writeReg (.blk i) w).len = s.len := rfl
@[simp] theorem State.writeReg_blk_blk (s : State) (i : Fin 16) (w : Word) : (s.writeReg (.blk i) w).blk = s.blk.set i.val w := rfl
@[simp] theorem State.writeReg_blk_h (s : State) (i : Fin 16) (w : Word) : (s.writeReg (.blk i) w).h = s.h := rfl
@[simp] theorem State.writeReg_blk_r (s : State) (i : Fin 16) (w : Word) : (s.writeReg (.blk i) w).r = s.r := rfl
@[simp] theorem State.writeReg_blk_cfg (s : State) (i : Fin 16) (w : Word) : (s.writeReg (.blk i) w).cfg = s.cfg := rfl
@[simp] theorem State.writeReg_blk_pending (s : State) (i : Fin 16) (w : Word) : (s.writeReg (.blk i) w).pending = s.pending := rfl
@[simp] theorem State.writeReg_blk_responses (s : State) (i : Fin 16) (w : Word) : (s.writeReg (.blk i) w).responses = s.responses := rfl

/-! ### `writeReg_h` -/

@[simp] theorem State.writeReg_h_len (s : State) (i : Fin 8) (w : Word) : (s.writeReg (.h i) w).len = s.len := rfl
@[simp] theorem State.writeReg_h_blk (s : State) (i : Fin 8) (w : Word) : (s.writeReg (.h i) w).blk = s.blk := rfl
@[simp] theorem State.writeReg_h_h (s : State) (i : Fin 8) (w : Word) : (s.writeReg (.h i) w).h = s.h.set i.val w := rfl
@[simp] theorem State.writeReg_h_r (s : State) (i : Fin 8) (w : Word) : (s.writeReg (.h i) w).r = s.r := rfl
@[simp] theorem State.writeReg_h_cfg (s : State) (i : Fin 8) (w : Word) : (s.writeReg (.h i) w).cfg = s.cfg := rfl
@[simp] theorem State.writeReg_h_pending (s : State) (i : Fin 8) (w : Word) : (s.writeReg (.h i) w).pending = s.pending := rfl
@[simp] theorem State.writeReg_h_responses (s : State) (i : Fin 8) (w : Word) : (s.writeReg (.h i) w).responses = s.responses := rfl

/-! ### `writeReg_r` -/

@[simp] theorem State.writeReg_r_len (s : State) (i : Fin 5) (w : Word) : (s.writeReg (.r i) w).len = s.len := rfl
@[simp] theorem State.writeReg_r_blk (s : State) (i : Fin 5) (w : Word) : (s.writeReg (.r i) w).blk = s.blk := rfl
@[simp] theorem State.writeReg_r_h (s : State) (i : Fin 5) (w : Word) : (s.writeReg (.r i) w).h = s.h := rfl
@[simp] theorem State.writeReg_r_r (s : State) (i : Fin 5) (w : Word) : (s.writeReg (.r i) w).r = s.r.set i.val w := rfl
@[simp] theorem State.writeReg_r_cfg (s : State) (i : Fin 5) (w : Word) : (s.writeReg (.r i) w).cfg = s.cfg := rfl
@[simp] theorem State.writeReg_r_pending (s : State) (i : Fin 5) (w : Word) : (s.writeReg (.r i) w).pending = s.pending := rfl
@[simp] theorem State.writeReg_r_responses (s : State) (i : Fin 5) (w : Word) : (s.writeReg (.r i) w).responses = s.responses := rfl

/-! ### Reset -/

@[simp] theorem State.resetOf_len (c : Config) : (State.resetOf c).len = 0x00000000#32 := rfl
@[simp] theorem State.resetOf_blk (c : Config) : (State.resetOf c).blk = Vector.replicate 16 0x00000000#32 := rfl
@[simp] theorem State.resetOf_h (c : Config) : (State.resetOf c).h = Vector.replicate 8 0x00000000#32 := rfl
@[simp] theorem State.resetOf_r (c : Config) : (State.resetOf c).r = Vector.replicate 5 0x00000000#32 := rfl
@[simp] theorem State.resetOf_cfg (c : Config) : (State.resetOf c).cfg = c := rfl
@[simp] theorem State.resetOf_pending (c : Config) : (State.resetOf c).pending = [] := rfl
@[simp] theorem State.resetOf_responses (c : Config) : (State.resetOf c).responses = [] := rfl

/-! ### The fields a register write never touches, whatever the register -/

@[simp] theorem State.writeReg_cfg (s : State) (g : Reg) (w : Word) : (s.writeReg g w).cfg = s.cfg := by cases g <;> rfl
@[simp] theorem State.writeReg_pending (s : State) (g : Reg) (w : Word) : (s.writeReg g w).pending = s.pending := by
  cases g <;> rfl
@[simp] theorem State.writeReg_responses (s : State) (g : Reg) (w : Word) : (s.writeReg g w).responses = s.responses := by
  cases g <;> rfl

end Sys2Proof.Machine
end

