-- ==== Sys2Proof/Laws/Ops.lean ====
section
/-! SUPPORT. One lemma for each shared operation that says once what it can do: the register map, reading and writing a
register, the decoder, the meanings, a step. -/

namespace Sys2Proof

/-! ### The register map -/

theorem aligned_iff (a : Addr) : aligned a = true ↔ a.toNat % 4 = 0 := by
  rw [aligned, beq_iff_eq, ← BitVec.toNat_inj]
  simp

@[simp] theorem Reg.addr_aligned (g : Reg) : aligned g.addr = true := by
  cases g with
  | ctrl => decide
  | len => decide
  | blk i => revert i; decide
  | h i => revert i; decide
  | r i => revert i; decide

/-- Whether a register exists on a core with the parameters `c`. -/
def Reg.exists (c : Config) : Reg → Bool
  | .r _ => c.rmdPresent
  | _ => true

/-- The register map sends a register's address to that register, where the register exists. -/
theorem mapped_addr (c : Config) (g : Reg) : mapped c g.addr = if g.exists c then some g else none := by
  obtain ⟨o, b⟩ := c
  cases g with
  | ctrl => rfl
  | len => rfl
  | blk i => revert i; cases o <;> cases b <;> decide
  | h i => revert i; cases o <;> cases b <;> decide
  | r i => revert i; cases o <;> cases b <;> decide

/-- A word-aligned address is mapped to the one register whose address it is. -/
theorem mapped_eq_some {c : Config} {a : Addr} {g : Reg} (ha : a.toNat % 4 = 0) (h : mapped c a = some g) :
    a = g.addr ∧ g.exists c = true := by
  have hn := a.isLt
  unfold mapped at h
  simp only at h
  split_ifs at h <;> cases h <;>
    refine ⟨BitVec.eq_of_toNat_eq ?_, by simp_all [Reg.exists]⟩ <;> simp [Reg.addr] <;> omega

theorem locate_addr (c : Config) (g : Reg) (hg : g.exists c = true) : locate c g.addr = .ok g := by
  simp [locate, mapped_addr, hg]

/-- Everything `locate` can answer. -/
theorem locate_cases (c : Config) (a : Addr) :
    (a.toNat % 4 ≠ 0 ∧ locate c a = .error .errAlign) ∨
    (a.toNat % 4 = 0 ∧ mapped c a = none ∧ locate c a = .error .errAddr) ∨
    (∃ g : Reg, a = g.addr ∧ g.exists c = true ∧ locate c a = .ok g) := by
  by_cases ha : aligned a = true
  · rcases hm : mapped c a with _ | g
    · exact .inr (.inl ⟨(aligned_iff a).1 ha, rfl, by simp [locate, ha, hm]⟩)
    · exact .inr (.inr ⟨g, (mapped_eq_some ((aligned_iff a).1 ha) hm).1, (mapped_eq_some ((aligned_iff a).1 ha) hm).2, by simp [locate, ha, hm]⟩)
  · exact .inl ⟨fun h => ha ((aligned_iff a).2 h), by simp [locate, ha]⟩

theorem locate_eq_ok {c : Config} {a : Addr} {g : Reg} (h : locate c a = .ok g) : a = g.addr ∧ g.exists c = true := by
  rcases locate_cases c a with ⟨-, h'⟩ | ⟨-, -, h'⟩ | ⟨g', hg, he, h'⟩
  · simp [h'] at h
  · simp [h'] at h
  · rw [h'] at h; cases h; exact ⟨hg, he⟩

/-! ### The decoder -/

/-- Everything the decoder can answer, in the order of 30_encoding.md R53. -/
theorem decode_cases (c : Config) (t : Transaction) :
    (∃ e, locate c t.addr = .error e ∧ decode c t = .error e) ∨
    (∃ g, locate c t.addr = .ok g ∧ t.we = false ∧ decode c t = .ok (.rd t.addr)) ∨
    (∃ g, locate c t.addr = .ok g ∧ t.we = true ∧ t.addr ≠ 0x00#8 ∧ decode c t = .ok (.wr t.addr t.wdata)) ∨
    (t.we = true ∧ t.addr = 0x00#8 ∧ ∃ e, decodeCommand c t.wdata = .error e ∧ decode c t = .error e) ∨
    (t.we = true ∧ t.addr = 0x00#8 ∧ ∃ k, decodeCommand c t.wdata = .ok k ∧ decode c t = .ok k.toInstr) := by
  rcases hl : locate c t.addr with e | g
  · exact .inl ⟨e, rfl, by simp [decode, hl]⟩
  · by_cases hw : t.we = true
    · by_cases ha : t.addr = 0x00#8
      · rcases hk : decodeCommand c t.wdata with e | k
        · exact .inr (.inr (.inr (.inl ⟨hw, ha, e, rfl, by rw [decode, hl]; simp [hw, ha, hk]⟩)))
        · exact .inr (.inr (.inr (.inr ⟨hw, ha, k, rfl, by rw [decode, hl]; simp [hw, ha, hk]⟩)))
      · exact .inr (.inr (.inl ⟨g, rfl, hw, ha, by simp [decode, hl, hw, ha]⟩))
    · exact .inr (.inl ⟨g, rfl, by simpa using hw, by simp [decode, hl, hw]⟩)

/-- A command word is its two fields. -/
theorem cmd_fields (w : Word) : w = cmdRsvd w ++ cmdOp w := by
  apply BitVec.eq_of_getElem_eq
  intro i hi
  unfold cmdRsvd cmdOp
  rw [BitVec.getElem_append]
  split <;> simp [BitVec.getElem_extractLsb', BitVec.getLsbD_eq_getElem, hi]
  congr 1
  omega

/-- The commands that exist on a core with the parameters `c`. -/
def Command.exists (c : Config) : Command → Bool
  | .rmdInit => c.rmdPresent
  | .rmdBlock => c.rmdPresent
  | _ => true

end Sys2Proof

namespace Sys2Proof.Machine

/-! ### Reading and writing a register -/

/-- A register other than `CTRL` reads back what was written to it. -/
theorem readReg_writeReg_same (s : State) (g : Reg) (w : Word) (hg : g ≠ .ctrl) : (s.writeReg g w).readReg g = w := by
  cases g with
  | ctrl => exact absurd rfl hg
  | len => rfl
  | blk i => simp [State.readReg]
  | h i => simp [State.readReg]
  | r i => simp [State.readReg]

/-- A write leaves every other register alone. -/
theorem readReg_writeReg_other (s : State) (g g' : Reg) (w : Word) (h : g' ≠ g) :
    (s.writeReg g w).readReg g' = s.readReg g' := by
  cases g <;> cases g' <;> simp_all [State.readReg, State.writeReg, Vector.getElem_set] <;>
    exact fun e => absurd (Fin.ext e).symm h

/-- Two states whose registers read alike have the same elements. -/
theorem sameElements_of_readReg {s t : State} (h : ∀ g, t.readReg g = s.readReg g) : SameElements s t :=
  ⟨h .len, Vector.ext fun i hi => h (.blk ⟨i, hi⟩), Vector.ext fun i hi => h (.h ⟨i, hi⟩),
    Vector.ext fun i hi => h (.r ⟨i, hi⟩)⟩

/-! ### What a meaning can do -/

/-- The elements of the core that a command leaves (10_state.md R25). -/
def commandResult (k : Command) (s : State) : State :=
  match k with
  | .nop => s
  | .shaInit => { s with h := Sha.iv }
  | .shaBlock => { s with h := Sha.compress s.h s.blk }
  | .midstate => { s with h := Sha.midstate s.len s.blk }
  | .rmdInit => { s with r := Rmd.iv }
  | .rmdBlock => { s with r := Rmd.compress s.r (Rmd.messageWords s.blk) }
  | .clear => s.zeroAll

/-- A command of a unit that exists answers OKAY, 0 with its result; a command of an absent unit raises `ERR_CMD`. -/
theorem execCommand_eq (k : Command) (s : State) :
    execCommand k s =
      if k.exists s.cfg then .next ((commandResult k s).respond 0x00000000#32) else .next (s.raise .errCmd) := by
  cases k <;> rfl

theorem exec_toInstr (k : Command) (s : State) : exec k.toInstr s = execCommand k s := by cases k <;> rfl

/-- A command word selects a command only where the command exists. -/
theorem decodeCommand_exists {c : Config} {w : Word} {k : Command} (h : decodeCommand c w = .ok k) :
    k.exists c = true := by
  unfold decodeCommand at h
  split at h
  · split at h
    case h_5 => split at h <;> simp_all [Command.exists]; cases h; rfl
    case h_6 => split at h <;> simp_all [Command.exists]; cases h; rfl
    all_goals first | (cases h; rfl) | simp at h
  · simp at h

/-- Everything a command word's decoding can raise is `ERR_CMD`. -/
theorem decodeCommand_error {c : Config} {w : Word} {e : BusError} (h : decodeCommand c w = .error e) : e = .errCmd := by
  unfold decodeCommand at h
  split at h
  · split at h <;> first | (cases h; rfl) | simp at h | (split at h <;> simp_all)
  · cases h; rfl

/-- Everything serving a transaction can do: one error response and nothing else; a read's answer; a register taking a
word; a command's result. It always gives a next state. -/
theorem transact_cases (t : Transaction) (s : State) :
    (∃ e, decode s.cfg t = .error e ∧ transact t s = .next (s.raise e)) ∨
    (∃ g : Reg, t.addr = g.addr ∧ g.exists s.cfg = true ∧ t.we = false ∧ decode s.cfg t = .ok (.rd t.addr) ∧
      transact t s = .next (s.respond (s.readReg g))) ∨
    (∃ g : Reg, t.addr = g.addr ∧ g.exists s.cfg = true ∧ g ≠ .ctrl ∧ t.we = true ∧
      decode s.cfg t = .ok (.wr t.addr t.wdata) ∧
      transact t s = .next ((s.writeReg g t.wdata).respond 0x00000000#32)) ∨
    (∃ k : Command, t.we = true ∧ t.addr = 0x00#8 ∧ decodeCommand s.cfg t.wdata = .ok k ∧ k.exists s.cfg = true ∧
      decode s.cfg t = .ok k.toInstr ∧ transact t s = .next ((commandResult k s).respond 0x00000000#32)) := by
  rcases decode_cases s.cfg t with ⟨e, hl, hd⟩ | ⟨g, hl, hw, hd⟩ | ⟨g, hl, hw, ha, hd⟩ | ⟨hw, ha, e, hk, hd⟩ |
    ⟨hw, ha, k, hk, hd⟩
  · exact .inl ⟨e, hd, by simp [transact, hd]⟩
  · obtain ⟨hg, he⟩ := locate_eq_ok hl
    exact .inr (.inl ⟨g, hg, he, hw, hd, by simp [transact, hd, exec, execRd, hl]⟩)
  · obtain ⟨hg, he⟩ := locate_eq_ok hl
    have hc : g ≠ .ctrl := by rintro rfl; exact ha hg
    refine .inr (.inr (.inl ⟨g, hg, he, hc, hw, hd, ?_⟩))
    simp only [transact, hd, exec, execWr, hl]
  · exact .inl ⟨e, hd, by simp [transact, hd]⟩
  · have he := decodeCommand_exists hk
    exact .inr (.inr (.inr ⟨k, hw, ha, hk, he, hd, by simp [transact, hd, exec_toInstr, execCommand_eq, he]⟩))

/-! ### What a step can do -/

theorem step_idle {s : State} (h : s.pending = []) : step s = .next s := by simp [step, h]

theorem step_reset {s : State} {rest : List PortEvent} (h : s.pending = .reset :: rest) :
    step s = .next { s with pending := rest }.zeroAll := by simp [step, h, serve, resetEvent]

theorem step_transaction {s : State} {t : Transaction} {rest : List PortEvent} (h : s.pending = .transaction t :: rest) :
    step s = transact t { s with pending := rest } := by simp [step, h, serve]

theorem step_issue (s : State) (t : Transaction) : step (s.issue t) = transact t s := by
  rw [step_transaction (State.issue_pending s t)]; rfl

end Sys2Proof.Machine
end

