-- ==== Sys2Proof/Laws/Bus.lean ====
section
/-! SUPPORT. The register map against the spec's list of unmapped addresses, the fields of a command word, what reading
and writing an existing register does, and that serving a transaction depends on the host's queue in no way. -/

namespace Sys2Proof

open Sys2Proof.Machine

/-- The decoder's `none` is R31's list of unmapped addresses (20_memory.md). -/
theorem mapped_eq_none_iff (c : Config) (a : Addr) (h4 : a.toNat % 4 = 0) :
    mapped c a = none ↔ UnmappedAddress c a.toNat := by
  have := a.isLt
  obtain ⟨o, b⟩ := c
  cases b <;> unfold mapped UnmappedAddress <;> simp <;> split_ifs <;> simp <;> omega

theorem locate_of_misaligned (c : Config) (a : Addr) (h : a.toNat % 4 ≠ 0) : locate c a = .error .errAlign := by
  have : ¬ aligned a = true := fun h' => h ((aligned_iff a).1 h')
  simp [locate, this]

theorem locate_of_unmapped (c : Config) (a : Addr) (h : a.toNat % 4 = 0) (hu : UnmappedAddress c a.toNat) :
    locate c a = .error .errAddr := by
  simp [locate, (aligned_iff a).2 h, (mapped_eq_none_iff c a h).2 hu]

theorem locate_of_mapped (c : Config) (a : Addr) (h : a.toNat % 4 = 0) (hu : ¬ UnmappedAddress c a.toNat) :
    ∃ g, locate c a = .ok g := by
  rcases hm : mapped c a with _ | g
  · exact absurd ((mapped_eq_none_iff c a h).1 hm) hu
  · exact ⟨g, by simp [locate, (aligned_iff a).2 h, hm]⟩

/-- A command word with a zero reserved field is its `op`. -/
theorem cmdFields_eq_iff (w : Word) (n : Nat) (hn : n < 256) :
    (cmdRsvd w = 0#24 ∧ (cmdOp w).toNat = n) ↔ w = BitVec.ofNat 32 n := by
  constructor
  · rintro ⟨h1, h2⟩
    apply BitVec.eq_of_toNat_eq
    have h1' := congrArg BitVec.toNat h1
    simp [cmdRsvd, cmdOp, Nat.shiftRight_eq_div_pow] at h1' h2
    have := w.isLt
    simp; omega
  · rintro rfl
    refine ⟨?_, ?_⟩
    · apply BitVec.eq_of_toNat_eq; simp [cmdRsvd, Nat.shiftRight_eq_div_pow]; omega
    · simp [cmdOp]; omega

@[simp] theorem Reg.addr_blk_toNat (i : Fin 16) : (Reg.blk i).addr.toNat = 0x40 + 4 * i.val := by
  simp [Reg.addr]; omega

@[simp] theorem Reg.addr_h_toNat (i : Fin 8) : (Reg.h i).addr.toNat = 0x80 + 4 * i.val := by
  simp [Reg.addr]; omega

@[simp] theorem Reg.addr_r_toNat (i : Fin 5) : (Reg.r i).addr.toNat = 0xA0 + 4 * i.val := by
  simp [Reg.addr]; omega

/-- Only the `R` words can be missing. -/
theorem Reg.exists_of {c : Config} {g : Reg} (h : ∀ i : Fin 5, g = .r i → c.rmdPresent = true) :
    g.exists c = true := by
  cases g <;> first | rfl | exact h _ rfl

end Sys2Proof

namespace Sys2Proof.Machine

/-! ### What a command leaves alone -/

@[simp] theorem commandResult_cfg (k : Command) (s : State) : (commandResult k s).cfg = s.cfg := by cases k <;> rfl
@[simp] theorem commandResult_pending (k : Command) (s : State) : (commandResult k s).pending = s.pending := by
  cases k <;> rfl
@[simp] theorem commandResult_responses (k : Command) (s : State) : (commandResult k s).responses = s.responses := by
  cases k <;> rfl

/-- A command that exists on a core without the RIPEMD-160 unit leaves the storage of `R` alone. -/
theorem commandResult_r_absent {k : Command} {s : State} (h : k.exists s.cfg = true) (ha : s.cfg.rmdPresent = false) :
    (commandResult k s).r = s.r := by
  cases k <;> simp_all [Command.exists, commandResult]

/-- So does a write of a register that exists there. -/
theorem writeReg_r_absent {s : State} {g : Reg} {w : Word} (he : g.exists s.cfg = true)
    (ha : s.cfg.rmdPresent = false) : (s.writeReg g w).r = s.r := by
  cases g <;> simp_all [Reg.exists]

/-! ### `RD`, `WR` and the transactions of a register that exists -/

theorem exec_rd {s : State} {g : Reg} (h : g.exists s.cfg = true) :
    exec (.rd g.addr) s = .next (s.respond (s.readReg g)) := by
  simp [exec, execRd, locate_addr _ _ h]

theorem exec_wr {s : State} {g : Reg} {w : Word} (h : g.exists s.cfg = true) (hc : g ≠ .ctrl) :
    exec (.wr g.addr w) s = .next ((s.writeReg g w).respond 0x00000000#32) := by
  simp only [exec, execWr, locate_addr _ _ h]

theorem transact_rdReg {s : State} {g : Reg} (hx : g.exists s.cfg = true) :
    transact (Seq.rdReg g) s = .next (s.respond (s.readReg g)) := by
  have hd : decode s.cfg (Seq.rdReg g) = .ok (.rd g.addr) := by
    simp [decode, Seq.rdReg, encode, locate_addr _ _ hx]
  simp only [transact, hd]; exact exec_rd hx

theorem transact_wrReg {s : State} {g : Reg} {w : Word} (hx : g.exists s.cfg = true) (hc : g ≠ .ctrl) :
    transact (Seq.wrReg g w) s = .next ((s.writeReg g w).respond 0x00000000#32) := by
  have hl := locate_addr _ _ hx
  have ha : g.addr ≠ 0x00#8 := by
    intro h
    have : locate s.cfg g.addr = .ok .ctrl := by rw [h]; rfl
    rw [hl] at this; cases this; exact hc rfl
  have hd : decode s.cfg (Seq.wrReg g w) = .ok (.wr g.addr w) := by
    simp [decode, Seq.wrReg, encode, hl, ha]
  simp only [transact, hd]; exact exec_wr hx hc

/-- The command word the encoder writes selects the command. -/
theorem decode_cmd {c : Config} {k : Command} (hx : k.exists c = true) : decode c (Seq.cmd k) = .ok k.toInstr := by
  obtain ⟨o, b⟩ := c
  cases k <;> first | rfl | (cases b <;> first | rfl | cases hx)

theorem transact_cmd {s : State} {k : Command} (hx : k.exists s.cfg = true) :
    transact (Seq.cmd k) s = .next ((commandResult k s).respond 0x00000000#32) := by
  simp only [transact, decode_cmd hx, exec_toInstr, execCommand_eq, hx, if_true]

/-- Serving a transaction neither reads nor writes the host's queue. -/
theorem transact_with_pending (t : Transaction) (s u : State) (q : List PortEvent) (h : transact t s = .next u) :
    transact t { s with pending := q } = .next { u with pending := q } := by
  rcases transact_cases t s with ⟨e, hd, he⟩ | ⟨g, ha, hx, hw, hd, he⟩ | ⟨g, ha, hx, hc, hw, hd, he⟩ |
    ⟨k, hw, ha, hk, hx, hd, he⟩ <;> rw [he] at h <;> cases h
  · simp [transact, hd, State.raise]
  · simp only [transact, hd, exec, execRd, ha, locate_addr _ _ hx]; cases g <;> rfl
  · simp only [transact, hd]; simp only [exec, execWr, ha, locate_addr _ _ hx]
    cases g <;> rfl
  · simp only [transact, hd, exec_toInstr, execCommand_eq, hx, if_true]; cases k <;> rfl

/-- Serving a transaction always gives a next state. -/
theorem transact_next (t : Transaction) (s : State) : ∃ u, transact t s = .next u := by
  rcases transact_cases t s with ⟨e, -, he⟩ | ⟨g, -, -, -, -, he⟩ | ⟨g, -, -, -, -, -, he⟩ | ⟨k, -, -, -, -, -, he⟩ <;>
    exact ⟨_, he⟩

end Sys2Proof.Machine
end

