-- ==== Sys2Proof/Laws/PerInstr.lean ====
section
/-! SUPPORT. The statements made for every instruction, one lemma per constructor. -/

namespace Sys2Proof.Laws

/-- The family `TableRow` (30_encoding.md R56): the 41 bits the encoder writes for an instruction have the pattern of
the instruction's row of the opcode table. -/
def TableRow.Statement (i : Instr) : Prop := i.row.hits (encode i).toBits = true

/-- Bit 40 under the mask of the `RD` and `WR` rows. -/
theorem tableRow_hits_we (t : Transaction) :
    OpcodeRow.hits { mask := 0x10000000000#41, value := if t.we then 0x10000000000#41 else 0x00000000000#41 }
      t.toBits = true := by
  obtain ⟨we, a, w⟩ := t
  rw [OpcodeRow.hits, beq_iff_eq]
  apply BitVec.eq_of_toNat_eq
  have ha := a.isLt
  have hw := w.isLt
  have hn : (Transaction.toBits ⟨we, a, w⟩).toNat = we.toNat * 2 ^ 40 + a.toNat * 2 ^ 32 + w.toNat := by
    simp only [Transaction.toBits, BitVec.toNat_append, BitVec.toNat_ofBool]
    rw [← Nat.shiftLeft_add_eq_or_of_lt hw, ← Nat.shiftLeft_add_eq_or_of_lt ha]
    simp only [Nat.shiftLeft_eq]; omega
  rw [BitVec.toNat_and, hn, show (0x10000000000#41).toNat = 2 ^ 40 from rfl, Nat.and_two_pow]
  cases we <;> simp [Nat.testBit_eq_decide_div_mod_eq] <;> omega

theorem TableRow.rd (a : Addr) : TableRow.Statement (.rd a) := tableRow_hits_we (encode (.rd a))
theorem TableRow.wr (a : Addr) (w : Word) : TableRow.Statement (.wr a w) := tableRow_hits_we (encode (.wr a w))
theorem TableRow.nop : TableRow.Statement .nop := by unfold TableRow.Statement; decide
theorem TableRow.shaInit : TableRow.Statement .shaInit := by unfold TableRow.Statement; decide
theorem TableRow.shaBlock : TableRow.Statement .shaBlock := by unfold TableRow.Statement; decide
theorem TableRow.midstate : TableRow.Statement .midstate := by unfold TableRow.Statement; decide
theorem TableRow.rmdInit : TableRow.Statement .rmdInit := by unfold TableRow.Statement; decide
theorem TableRow.rmdBlock : TableRow.Statement .rmdBlock := by unfold TableRow.Statement; decide
theorem TableRow.clear : TableRow.Statement .clear := by unfold TableRow.Statement; decide

end Sys2Proof.Laws
end

