-- ==== Sys2Proof/Laws/Sequences.lean ====
section
/-! SUPPORT. What a list of transactions does to the core when the host issues it: register writes, register reads, the
pseudo-instructions, the loop of a hash over its blocks; and the block and the padding of a byte sequence. -/

namespace Sys2Proof.Machine

/-! ### Lists of transactions -/

theorem run_cons {t : Transaction} {ts : List Transaction} {s u : State} (h : transact t s = .next u) :
    Seq.run (t :: ts) s = Seq.run ts u := by
  simp [Seq.run, step_issue, h]

theorem run_append (a b : List Transaction) (s : State) : Seq.run (a ++ b) s = (Seq.run a s).bind (Seq.run b) := by
  induction a generalizing s with
  | nil => rfl
  | cons t a ih =>
    obtain ⟨u, hu⟩ := transact_next t s
    rw [List.cons_append, run_cons hu, run_cons hu, ih]

/-- The `OKAY` responses that carry the words. -/
def okays (ws : List Word) : List Response := ws.map fun w => ⟨.okay, w⟩

theorem okays_resp (ws : List Word) : ∀ p ∈ okays ws, p.resp = .okay := by simp [okays]

theorem replicate_okay_resp (n : Nat) : ∀ p ∈ List.replicate n (⟨.okay, 0x00000000#32⟩ : Response), p.resp = .okay := by
  intro p hp; rw [List.eq_of_mem_replicate hp]

/-- Answering between two register writes is answering after them. -/
theorem writes_respond (l : List (Reg × Word)) (a : State) :
    l.foldl (fun s p => s.writeReg p.1 p.2) (a.respond 0x00000000#32) =
      (l.foldl (fun s p => s.writeReg p.1 p.2) a).respond 0x00000000#32 ∧
    (l.foldl (fun s p => s.writeReg p.1 p.2) a).responses = a.responses := by
  induction l generalizing a with
  | nil => exact ⟨rfl, rfl⟩
  | cons q l ih =>
    have : (a.respond 0x00000000#32).writeReg q.1 q.2 = (a.writeReg q.1 q.2).respond 0x00000000#32 := by
      cases q.1 <;> rfl
    simp only [List.foldl_cons, this]
    exact ⟨(ih _).1, by rw [(ih _).2]; simp⟩

/-- Writing registers that exist writes them in order and answers `OKAY`, 0 each time. -/
theorem run_writes (l : List (Reg × Word)) (s : State) (hl : ∀ p ∈ l, p.1 ≠ .ctrl ∧ p.1.exists s.cfg = true) :
    Seq.run (l.map fun p => Seq.wrReg p.1 p.2) s =
      some { (l.foldl (fun s p => s.writeReg p.1 p.2) s) with
        responses := s.responses ++ List.replicate l.length ⟨.okay, 0x00000000#32⟩ } := by
  induction l generalizing s with
  | nil => simp [Seq.run]
  | cons p l ih =>
    have hp := hl p (by simp)
    rw [List.map_cons, run_cons (transact_wrReg hp.2 hp.1),
      ih _ (fun q hq => by simpa using hl q (List.mem_cons_of_mem _ hq)), (writes_respond l _).1]
    simp only [List.foldl_cons, State.respond, List.length_cons, List.replicate_succ, State.writeReg_responses,
      List.append_assoc, List.singleton_append]

/-- Reading registers that exist answers their words and changes nothing. -/
theorem run_reads (l : List Reg) (s : State) (hl : ∀ g ∈ l, g.exists s.cfg = true) :
    Seq.run (l.map Seq.rdReg) s = some { s with responses := s.responses ++ okays (l.map s.readReg) } := by
  induction l generalizing s with
  | nil => simp [Seq.run, okays]
  | cons g l ih =>
    rw [List.map_cons, run_cons (transact_rdReg (hl g (by simp))),
      ih _ (fun q hq => by simpa using hl q (List.mem_cons_of_mem _ hq))]
    simp [State.respond, okays]
    intro a _; cases a <;> rfl

/-! ### The pseudo-instructions of 30_encoding.md R62 -/

theorem foldl_blk (b : Vector Word 16) (s : State) (l : List (Fin 16)) :
    (l.map fun i => (Reg.blk i, b[i.val])).foldl (fun s p => s.writeReg p.1 p.2) s =
      { s with blk := l.foldl (fun v i => v.set i.val b[i.val]) s.blk } := by
  induction l generalizing s with
  | nil => rfl
  | cons i l ih => rw [List.map_cons, List.foldl_cons, ih]; rfl

theorem foldl_h (b : Vector Word 8) (s : State) (l : List (Fin 8)) :
    (l.map fun i => (Reg.h i, b[i.val])).foldl (fun s p => s.writeReg p.1 p.2) s =
      { s with h := l.foldl (fun v i => v.set i.val b[i.val]) s.h } := by
  induction l generalizing s with
  | nil => rfl
  | cons i l ih => rw [List.map_cons, List.foldl_cons, ih]; rfl

/-- Setting the listed words of a vector to those of another. -/
theorem foldl_set {n : Nat} (b : Vector Word n) (l : List (Fin n)) (v : Vector Word n) (j : Nat) (hj : j < n) :
    (l.foldl (fun v i => v.set i.val b[i.val]) v)[j] = if (⟨j, hj⟩ : Fin n) ∈ l then b[j] else v[j] := by
  induction l generalizing v with
  | nil => simp
  | cons i l ih =>
    rw [List.foldl_cons, ih, Vector.getElem_set]
    by_cases h : (⟨j, hj⟩ : Fin n) ∈ l
    · simp [h]
    · simp only [h, if_false, List.mem_cons, or_false]
      by_cases h2 : i.val = j
      · subst h2; simp
      · have : ¬ (⟨j, hj⟩ : Fin n) = i := fun e => h2 (by rw [← e])
        simp [h2, this]

theorem foldl_set_all {n : Nat} (b v : Vector Word n) :
    (List.finRange n).foldl (fun v i => v.set i.val b[i.val]) v = b := by
  apply Vector.ext; intro j hj; rw [foldl_set]; simp

theorem run_ldBlk (b : Vector Word 16) (s : State) :
    Seq.run (Seq.ldBlk b) s =
      some { s with blk := b, responses := s.responses ++ List.replicate 16 ⟨.okay, 0x00000000#32⟩ } := by
  have e : Seq.ldBlk b =
      List.map (fun p => Seq.wrReg p.1 p.2) ((List.finRange 16).map fun i => (Reg.blk i, b[i.val])) := by
    rw [List.map_map]; rfl
  rw [e, run_writes _ _ (by simp [Reg.exists]), foldl_blk, foldl_set_all]; simp

theorem run_ldH (w : Vector Word 8) (s : State) :
    Seq.run (Seq.ldH w) s =
      some { s with h := w, responses := s.responses ++ List.replicate 8 ⟨.okay, 0x00000000#32⟩ } := by
  have e : Seq.ldH w =
      List.map (fun p => Seq.wrReg p.1 p.2) ((List.finRange 8).map fun i => (Reg.h i, w[i.val])) := by
    rw [List.map_map]; rfl
  rw [e, run_writes _ _ (by simp [Reg.exists]), foldl_h, foldl_set_all]; simp

theorem run_rdH (s : State) :
    Seq.run Seq.rdH s = some { s with responses := s.responses ++ okays s.h.toList } := by
  have := run_reads ((List.finRange 8).map Reg.h) s (by simp [Reg.exists])
  rw [List.map_map] at this
  refine Eq.trans (by rfl) (this.trans ?_)
  congr 4
  apply List.ext_getElem <;> simp [State.readReg]

theorem run_rdR (s : State) (h : s.cfg.rmdPresent = true) :
    Seq.run Seq.rdR s = some { s with responses := s.responses ++ okays s.r.toList } := by
  have := run_reads ((List.finRange 5).map Reg.r) s (by simp [Reg.exists, h])
  rw [List.map_map] at this
  refine Eq.trans (by rfl) (this.trans ?_)
  congr 4
  apply List.ext_getElem <;> simp [State.readReg]

/-! ### The loops of 44_host_sequences.md R136, R138 -/

theorem run_shaBlocks (bs : List (Vector Word 16)) (s : State) :
    ∃ (t : State) (n : Nat), Seq.run (Seq.blockTransactions .shaBlock bs) s = some t ∧
      t.h = Seq.shaFold s.h bs ∧ t.len = s.len ∧ t.r = s.r ∧ t.cfg = s.cfg ∧ t.pending = s.pending ∧
      t.responses = s.responses ++ List.replicate n ⟨.okay, 0x00000000#32⟩ := by
  induction bs generalizing s with
  | nil => exact ⟨s, 0, rfl, rfl, rfl, rfl, rfl, rfl, by simp⟩
  | cons b bs ih =>
    simp only [Seq.blockTransactions, List.flatMap_cons]
    rw [run_append, run_append, run_ldBlk]
    simp only [Option.bind_some]
    rw [run_cons (transact_cmd rfl)]
    simp only [Seq.run, Option.bind_some]
    obtain ⟨t, n, h1, h2, h3, h4, h5, h6, h7⟩ := ih ((commandResult .shaBlock
      { s with blk := b, responses := s.responses ++ List.replicate 16 ⟨.okay, 0x00000000#32⟩ }).respond 0x00000000#32)
    refine ⟨t, 16 + (1 + n), h1, h2, h3, h4, h5, h6, ?_⟩
    rw [h7]; simp [List.replicate_add, List.append_assoc]

theorem run_rmdBlocks (bs : List (Vector Word 16)) (s : State) (hp : s.cfg.rmdPresent = true) :
    ∃ (t : State) (n : Nat), Seq.run (Seq.blockTransactions .rmdBlock bs) s = some t ∧
      t.r = Seq.rmdFold s.r bs ∧ t.len = s.len ∧ t.h = s.h ∧ t.cfg = s.cfg ∧ t.pending = s.pending ∧
      t.responses = s.responses ++ List.replicate n ⟨.okay, 0x00000000#32⟩ := by
  induction bs generalizing s with
  | nil => exact ⟨s, 0, rfl, rfl, rfl, rfl, rfl, rfl, by simp⟩
  | cons b bs ih =>
    simp only [Seq.blockTransactions, List.flatMap_cons]
    rw [run_append, run_append, run_ldBlk]
    simp only [Option.bind_some]
    rw [run_cons (transact_cmd (k := .rmdBlock) (s := { s with
      blk := b, responses := s.responses ++ List.replicate 16 ⟨.okay, 0x00000000#32⟩ }) hp)]
    simp only [Seq.run, Option.bind_some]
    obtain ⟨t, n, h1, h2, h3, h4, h5, h6, h7⟩ := ih ((commandResult .rmdBlock
      { s with blk := b, responses := s.responses ++ List.replicate 16 ⟨.okay, 0x00000000#32⟩ }).respond 0x00000000#32)
      hp
    refine ⟨t, 16 + (1 + n), h1, h2, h3, h4, h5, h6, ?_⟩
    rw [h7]; simp [List.replicate_add, List.append_assoc]

/-- The words read last are the read data of the last responses. -/
theorem lastWords_okays {n : Nat} {s : State} {ps : List Response} {ws : List Word}
    (hr : s.responses = ps ++ okays ws) (hn : ws.length = n) : Seq.lastWords n s = ws := by
  have : (okays ws).length = n := by simp [okays, hn]
  unfold Seq.lastWords
  rw [hr, List.length_append, this, Nat.add_sub_cancel, List.drop_left]
  simp [okays, Function.comp_def]

theorem NoError.trans {a b c : State} (h : NoError a b) (h' : NoError b c) : NoError a c := by
  obtain ⟨p, h1, h2⟩ := h
  obtain ⟨q, h3, h4⟩ := h'
  refine ⟨p ++ q, by rw [h3, h1, List.append_assoc], fun x hx => ?_⟩
  rcases List.mem_append.1 hx with h | h
  · exact h2 x h
  · exact h4 x h

end Sys2Proof.Machine

namespace Sys2Proof.Seq

/-! ### Lengths, blocks -/

theorem pad256_length (m : List Byte) : (pad256 m).length = 64 * ((m.length + 9 + 63) / 64) := by
  simp [pad256, padZeros, be64, beBytes]; omega

theorem sha256_length (m : List Byte) : (sha256 m).length = 32 := by
  have h2 : ∀ w, (beBytes w).length = 4 := fun _ => rfl
  simp [sha256, List.length_flatMap, h2]

theorem rmd160_length (m : List Byte) : (rmd160 m).length = 20 := by
  have h2 : ∀ w, (leBytes w).length = 4 := fun _ => rfl
  simp [rmd160, List.length_flatMap, h2]

theorem blocksOf_cons (q : List Byte) (n : Nat) (h : q.length = 64 * (n + 1)) :
    blocksOf q = blockAt q 0 :: (blocksOf q).tail := by
  have : q.length / 64 = n + 1 := by omega
  simp [blocksOf, this, List.range_succ_eq_map]

/-- The first block depends on the first 64 bytes alone. -/
theorem blockAt_zero_congr (q q' : List Byte) (h : ∀ i < 64, q.getD i 0x00#8 = q'.getD i 0x00#8) :
    blockAt q 0 = blockAt q' 0 := by
  apply Vector.ext; intro i hi
  simp only [blockAt, Vector.getElem_ofFn, beWordAt]
  rw [h _ (by omega), h _ (by omega), h _ (by omega), h _ (by omega)]

/-- The first 64 bytes of the document's working buffer, away from the length field (41_sha256.md R98's reason). -/
theorem workingBuffer_getD (m : List Byte) (k : Nat) (hk : k < 64) (hc : 55 < m.length ∨ k < 60) :
    (workingBuffer m).getD k 0x00#8 =
      if h : k < m.length then m[k] else if k = m.length then 0x80#8 else 0x00#8 := by
  unfold workingBuffer
  split_ifs with h1 h2
  · rw [List.append_assoc, List.append_assoc, List.getD_append _ _ _ _ h1, List.getD_eq_getElem _ _ h1]
  · subst h2
    rw [List.append_assoc, List.append_assoc, List.getD_append_right _ _ _ _ (le_refl _)]; simp
  · rw [List.append_assoc, List.append_assoc, List.getD_append_right _ _ _ _ (by omega),
      List.getD_append_right _ _ _ _ (by simp; omega)]
    rw [List.getD_append _ _ _ _ (by simp; omega)]
    rw [List.getD_eq_getElem _ _ (by simp; omega)]; simp

/-- Its length field, when it lies in the first block. -/
theorem workingBuffer_getD_length (m : List Byte) (j : Nat) (hj : j < 4) (hc : m.length ≤ 55) :
    (workingBuffer m).getD (60 + j) 0x00#8 = beByte (BitVec.ofNat 32 (8 * m.length)) j := by
  unfold workingBuffer
  have e : 64 * ((m.length + 9 + 63) / 64) - m.length - 5 = 59 - m.length := by omega
  rw [e, List.getD_append_right _ _ _ _ (by simp; omega)]
  have : 60 + j - (m ++ [0x80#8] ++ List.replicate (59 - m.length) 0x00#8).length = j := by simp; omega
  rw [this]
  interval_cases j <;> rfl

end Sys2Proof.Seq
end

