-- ==== Sys2Proof/Laws/Words.lean ====
section
/-! SUPPORT. The bits of every word, byte and transaction the model builds by appending, and the byte views of a word:
the lemmas by which a proof never unfolds an append. -/

namespace Sys2Proof

/-! ### Transactions and responses, bit by bit -/

theorem Transaction.toBits_getLsbD (t : Transaction) (i : Nat) :
    t.toBits.getLsbD i =
      if i < 32 then t.wdata.getLsbD i else if i < 40 then t.addr.getLsbD (i - 32) else i == 40 && t.we := by
  have h : t.toBits.getLsbD i = _ := BitVec.getLsbD_append (x := BitVec.ofBool t.we ++ t.addr) (y := t.wdata)
  rw [h]
  split
  · rfl
  · rw [BitVec.getLsbD_append]
    split
    · rw [if_pos (by omega)]
    · rw [if_neg (by omega), BitVec.getLsbD_ofBool]
      rcases Decidable.em (i = 40) with rfl | hi
      · simp
      · have : i - 32 - 8 ≠ 0 := by omega
        simp [hi, this]

theorem Response.toBits_getLsbD (p : Response) (i : Nat) :
    p.toBits.getLsbD i = if i < 32 then p.rdata.getLsbD i else p.resp.code.getLsbD (i - 32) :=
  BitVec.getLsbD_append (x := p.resp.code) (y := p.rdata)

/-! ### Bytes of a word -/

theorem beByte_getLsbD (a : Word) (j i : Nat) :
    (beByte a j).getLsbD i = (decide (i < 8) && a.getLsbD (24 - 8 * j + i)) := by
  simp [beByte, BitVec.getLsbD_extractLsb']

theorem leByte_getLsbD (a : Word) (j i : Nat) :
    (leByte a j).getLsbD i = (decide (i < 8) && a.getLsbD (8 * j + i)) := by
  simp [leByte, BitVec.getLsbD_extractLsb']

theorem be32_getLsbD (b0 b1 b2 b3 : Byte) (i : Nat) :
    (be32 b0 b1 b2 b3).getLsbD i =
      if i < 8 then b3.getLsbD i else if i < 16 then b2.getLsbD (i - 8)
      else if i < 24 then b1.getLsbD (i - 16) else b0.getLsbD (i - 24) := by
  have h : (be32 b0 b1 b2 b3).getLsbD i = _ := BitVec.getLsbD_append (x := b0 ++ b1 ++ b2) (y := b3)
  rw [h, BitVec.getLsbD_append, BitVec.getLsbD_append]
  have e1 : i - 8 - 8 = i - 16 := by omega
  have e2 : i - 16 - 8 = i - 24 := by omega
  rw [e1, e2]
  split_ifs <;> first | rfl | omega

/-- The word of four bytes has those bytes, most significant first. -/
theorem beByte_be32 (b0 b1 b2 b3 : Byte) :
    beByte (be32 b0 b1 b2 b3) 0 = b0 ∧ beByte (be32 b0 b1 b2 b3) 1 = b1 ∧
    beByte (be32 b0 b1 b2 b3) 2 = b2 ∧ beByte (be32 b0 b1 b2 b3) 3 = b3 := by
  refine ⟨?_, ?_, ?_, ?_⟩ <;> (apply BitVec.eq_of_getLsbD_eq; intro i hi; rw [beByte_getLsbD, be32_getLsbD])
  · have h1 : ¬ 24 + i < 8 := by omega
    have h2 : ¬ 24 + i < 16 := by omega
    simp [hi, h1, h2]
  · have h1 : ¬ 16 + i < 8 := by omega
    have h2 : 16 + i < 24 := by omega
    simp [hi, h1, h2]
  · have h1 : 8 + i < 16 := by omega
    simp [hi, h1]
  · simp [hi]

/-- A word is the word of its four bytes. -/
theorem be32_beByte (a : Word) : be32 (beByte a 0) (beByte a 1) (beByte a 2) (beByte a 3) = a := by
  apply BitVec.eq_of_getLsbD_eq
  intro i hi
  rw [be32_getLsbD]
  simp only [beByte_getLsbD]
  split_ifs with h1 h2 h3
  · simp [h1]
  · have : 24 - 8 * 2 + (i - 8) = i := by omega
    rw [this, decide_eq_true (by omega), Bool.true_and]
  · have : 24 - 8 * 1 + (i - 16) = i := by omega
    rw [this, decide_eq_true (by omega), Bool.true_and]
  · have : 24 - 8 * 0 + (i - 24) = i := by omega
    rw [this, decide_eq_true (by omega), Bool.true_and]

/-- `BSWAP` is the little-endian word of the bytes in big-endian order. -/
theorem bswap_eq_le32 (a : Word) : bswap a = le32 (beByte a 0) (beByte a 1) (beByte a 2) (beByte a 3) := rfl

theorem le32_eq_be32 (b0 b1 b2 b3 : Byte) : le32 b0 b1 b2 b3 = be32 b3 b2 b1 b0 := rfl

/-- Two words with the same four bytes are equal. -/
theorem eq_of_beByte_eq {a b : Word} (h : ∀ j < 4, beByte a j = beByte b j) : a = b := by
  rw [← be32_beByte a, ← be32_beByte b, h 0 (by decide), h 1 (by decide), h 2 (by decide), h 3 (by decide)]

/-! ### Rotations, bit by bit -/

theorem rotr_getLsbD (a : Word) (n i : Nat) :
    (rotr a n).getLsbD i = (a.getLsbD (n + i) || (decide (i < 32) && (!decide (i < 32 - n) && a.getLsbD (i - (32 - n))))) := by
  simp [rotr, BitVec.getLsbD_or, BitVec.getLsbD_ushiftRight, BitVec.getLsbD_shiftLeft, Bool.and_assoc]

/-! ### The block's bytes and words -/

/-- Byte `k` of the block is byte `k mod 4` of word `k div 4`. -/
theorem blkByte_eq (blk : Vector Word 16) (k : Fin 64) :
    blkByte blk k = beByte (blk[k.val / 4]'(by omega)) (k.val % 4) := rfl

@[simp] theorem blkBytes_getElem (blk : Vector Word 16) (k : Nat) (hk : k < 64) :
    (blkBytes blk)[k] = blkByte blk ⟨k, hk⟩ := by simp [blkBytes]

theorem beWords_getElem (p : Vector Byte 64) (i : Nat) (hi : i < 16) :
    (beWords p)[i] = be32 (p[4 * i]'(by omega)) (p[4 * i + 1]'(by omega)) (p[4 * i + 2]'(by omega))
      (p[4 * i + 3]'(by omega)) := by
  simp [beWords]

@[simp] theorem padFirstBlock_getElem (len : Word) (b : Vector Byte 64) (k : Nat) (hk : k < 64) :
    (Sha.padFirstBlock len b)[k] = Sha.padByte len b ⟨k, hk⟩ := by simp [Sha.padFirstBlock]

end Sys2Proof
end

