-- ==== Sys2Proof/Laws/Sha256.lean ====
section
/-! SUPPORT. The message schedule word by word, the padder's bytes, and the shape of a midstate. -/

namespace Sys2Proof.Sha

/-! ### The schedule -/

/-- Word `t` of the schedule of `m` (41_sha256.md R85). -/
def scheduleWord (m : Vector Word 16) (t : Nat) : Word := (schedule m).getD t 0#32

theorem scheduleRev_length (m : Vector Word 16) (n : Nat) : (scheduleRev m n).length = 16 + n := by
  induction n with
  | zero => simp [scheduleRev]
  | succ n ih => simp [scheduleRev, ih]; omega

/-- A longer schedule has the same earlier words. -/
theorem scheduleRev_getD (m : Vector Word 16) (n k t : Nat) (ht : t < 16 + n) :
    (scheduleRev m (n + k)).getD (16 + (n + k) - 1 - t) 0#32 = (scheduleRev m n).getD (16 + n - 1 - t) 0#32 := by
  induction k with
  | zero => rfl
  | succ k ih =>
    have : 16 + (n + (k + 1)) - 1 - t = (16 + (n + k) - 1 - t) + 1 := by omega
    rw [this, ← Nat.add_assoc, scheduleRev, List.getD_cons_succ, ih]

theorem scheduleWord_eq (m : Vector Word 16) (n t : Nat) (hn : n ≤ 48) (ht : t < 16 + n) :
    scheduleWord m t = (scheduleRev m n).getD (16 + n - 1 - t) 0#32 := by
  unfold scheduleWord schedule
  have h1 := scheduleRev_getD m n (48 - n) t ht
  rw [Nat.add_sub_cancel' hn] at h1
  rw [← h1]
  have hl := scheduleRev_length m 48
  rw [List.getD_eq_getElem _ _ (by simp [hl]; omega), List.getD_eq_getElem _ _ (by omega), List.getElem_reverse]
  congr 1; omega

/-- The first sixteen words are the message words (R85). -/
theorem scheduleWord_low (m : Vector Word 16) (t : Nat) (h : t < 16) : scheduleWord m t = m[t] := by
  rw [scheduleWord_eq m 0 t (by decide) (by omega)]
  simp only [scheduleRev]
  rw [List.getD_eq_getElem _ _ (by simp; omega), List.getElem_reverse]
  simp; congr 1; omega

/-- The recurrence of the other words (R85). -/
theorem scheduleWord_high (m : Vector Word 16) (t : Nat) (h : 16 ≤ t) (h' : t ≤ 63) :
    scheduleWord m t =
      ssig1 (scheduleWord m (t - 2)) + scheduleWord m (t - 7) + ssig0 (scheduleWord m (t - 15)) +
        scheduleWord m (t - 16) := by
  obtain ⟨n, rfl⟩ : ∃ n, t = 16 + n := ⟨t - 16, by omega⟩
  rw [scheduleWord_eq m (n + 1) (16 + n) (by omega) (by omega)]
  have : 16 + (n + 1) - 1 - (16 + n) = 0 := by omega
  rw [this, scheduleRev, List.getD_cons_zero, nextW]
  rw [scheduleWord_eq m n (16 + n - 2) (by omega) (by omega), scheduleWord_eq m n (16 + n - 7) (by omega) (by omega),
    scheduleWord_eq m n (16 + n - 15) (by omega) (by omega), scheduleWord_eq m n (16 + n - 16) (by omega) (by omega)]
  have e1 : 16 + n - 1 - (16 + n - 2) = 1 := by omega
  have e2 : 16 + n - 1 - (16 + n - 7) = 6 := by omega
  have e3 : 16 + n - 1 - (16 + n - 15) = 14 := by omega
  have e4 : 16 + n - 1 - (16 + n - 16) = 15 := by omega
  rw [e1, e2, e3, e4]

/-! ### The padder -/

/-- The padded block depends on the bytes below the length alone. -/
theorem padFirstBlock_congr (len : Word) (b b' : Vector Byte 64)
    (h : ∀ k : Fin 64, k.val < len.toNat → b'[k.val] = b[k.val]) : padFirstBlock len b' = padFirstBlock len b := by
  apply Vector.ext; intro k hk
  simp only [padFirstBlock_getElem, padByte]
  split_ifs <;> first | rfl | exact h ⟨k, hk⟩ (by assumption)

/-- From 64 bytes on the padder changes nothing (R89 "`L >= 64`: `p = b`"). -/
theorem padFirstBlock_long (len : Word) (b : Vector Byte 64) (h : 64 ≤ len.toNat) : padFirstBlock len b = b := by
  apply Vector.ext; intro k hk
  rw [padFirstBlock_getElem, padByte, if_neg (by omega), if_pos (by simp; omega)]

/-! ### The block's bytes and words -/

/-- Byte `4i+j` of the block is byte `j` of word `i`. -/
theorem blkByte_word {blk : Vector Word 16} (i : Fin 16) (j : Nat) (hj : j < 4) (h : 4 * i.val + j < 64) :
    blkByte blk ⟨4 * i.val + j, h⟩ = beByte blk[i.val] j := by
  rw [blkByte_eq]
  have h1 : (4 * i.val + j) / 4 = i.val := by omega
  have h2 : (4 * i.val + j) % 4 = j := by omega
  simp only [h1, h2]

/-- The words of the block's bytes are the block's words (R88). -/
theorem beWords_blkBytes (blk : Vector Word 16) : beWords (blkBytes blk) = blk := by
  apply Vector.ext; intro i hi
  rw [beWords_getElem]; simp only [blkBytes_getElem]
  have h0 : blkByte blk ⟨4 * i, by omega⟩ = beByte blk[i] 0 := blkByte_word ⟨i, hi⟩ 0 (by decide) (by simp; omega)
  rw [h0, blkByte_word ⟨i, hi⟩ 1 (by decide), blkByte_word ⟨i, hi⟩ 2 (by decide), blkByte_word ⟨i, hi⟩ 3 (by decide),
    be32_beByte]

/-- From 64 bytes on a midstate is the transform of the block from the IV. -/
theorem midstate_long (len : Word) (blk : Vector Word 16) (h : 64 ≤ len.toNat) :
    midstate len blk = compress iv blk := by
  rw [midstate, padFirstBlock_long _ _ h, beWords_blkBytes]

end Sys2Proof.Sha
end

