-- ==== Sys2Proof/Tests/Slice0.lean ====
section
/-! SUPPORT. Tests. Expected values are those of spec/95_test_vectors.md (V1 to V34) or of the rule a test names; the
witnesses show that each statement's hypotheses can be met, at the ends of their ranges. -/

namespace Sys2Proof.Tests

open Sys2Proof.Machine

/-- The core without the RIPEMD-160 unit. -/
def noRmd : Config := { midstateWordOrder := .be, rmdPresent := false }

/-- A block given by its first word, the fourteenth and the last; the others are zero. -/
def block (w0 w14 w15 : Word) : Vector Word 16 := ((Vector.replicate 16 0#32).set 0 w0).set 14 w14 |>.set 15 w15

/-- A reset core of the default build whose buffer and length have been written. -/
def loaded (len : Word) (blk : Vector Word 16) : State := { State.reset with len := len, blk := blk }

/-- What a test looks at in a next state. -/
def see {α : Type} (f : State → α) (o : Host.Outcome State Fault Refusal) : Option α :=
  match o with
  | .next s => some (f s)
  | .fault _ => none
  | .refused _ => none

/-- The last response a state's host was given. -/
def last (s : State) : Option Response := s.responses.getLast?

/-- The response a core gives to the transaction with these 41 bits. -/
def answer (c : Config) (b : BitVec 41) : Option Response :=
  (see last (transact (.ofBits b) (State.resetOf c))).join

/-! ### WellFormed refuses an ill-formed term, one for each check -/

theorem test_wf_rd_misaligned : Instr.wellFormed Config.default (.rd 0x41#8) = false := by decide
theorem test_wf_rd_unmapped : Instr.wellFormed Config.default (.rd 0x3C#8) = false := by decide
theorem test_wf_rd_absent_unit : Instr.wellFormed noRmd (.rd 0xA0#8) = false := by decide
theorem test_wf_wr_misaligned : Instr.wellFormed Config.default (.wr 0x83#8 1#32) = false := by decide
theorem test_wf_wr_unmapped : Instr.wellFormed Config.default (.wr 0xB4#8 1#32) = false := by decide
theorem test_wf_wr_ctrl : Instr.wellFormed Config.default (.wr 0x00#8 0#32) = false := by decide
theorem test_wf_rmdInit_absent_unit : Instr.wellFormed noRmd .rmdInit = false := by decide
theorem test_wf_rmdBlock_absent_unit : Instr.wellFormed noRmd .rmdBlock = false := by decide

/-! ### Every constructor's decoding, from words written out bit by bit: we, addr (8), wdata (32) (R50, R55; V33) -/

theorem test_decode_rd :
    decode Config.default (.ofBits 0b01000000000000000000000000000000000000000#41) = .ok (.rd 0x80#8) := by decide
theorem test_decode_rd_ignores_wdata :
    decode Config.default (.ofBits 0b01000000011011110101011011011111011101111#41) = .ok (.rd 0x80#8) := by decide
theorem test_decode_wr :
    decode Config.default (.ofBits 0b10100000001100001011000100110001110000000#41) = .ok (.wr 0x40#8 0x61626380#32) := by
  decide
theorem test_decode_wr_len : decode Config.default (.ofBits 0x10400000050#41) = .ok (.wr 0x04#8 0x50#32) := by decide
theorem test_decode_nop :
    decode Config.default (.ofBits 0b10000000000000000000000000000000000000000#41) = .ok .nop := by decide
theorem test_decode_shaInit :
    decode Config.default (.ofBits 0b10000000000000000000000000000000000000001#41) = .ok .shaInit := by decide
theorem test_decode_shaBlock :
    decode Config.default (.ofBits 0b10000000000000000000000000000000000000010#41) = .ok .shaBlock := by decide
theorem test_decode_midstate :
    decode Config.default (.ofBits 0b10000000000000000000000000000000000000011#41) = .ok .midstate := by decide
theorem test_decode_rmdInit :
    decode Config.default (.ofBits 0b10000000000000000000000000000000000010001#41) = .ok .rmdInit := by decide
theorem test_decode_rmdBlock :
    decode Config.default (.ofBits 0b10000000000000000000000000000000000010010#41) = .ok .rmdBlock := by decide
theorem test_decode_clear :
    decode Config.default (.ofBits 0b10000000000000000000000000000000000100000#41) = .ok .clear := by decide
theorem test_decode_illegal_commands :
    decode Config.default (.ofBits 0x10000000021#41) = .error .errCmd ∧
    decode Config.default (.ofBits 0x10000000100#41) = .error .errCmd ∧
    decode noRmd (.ofBits 0x10000000011#41) = .error .errCmd := by decide
theorem test_decode_address_errors :
    decode Config.default (.ofBits 0x10100000003#41) = .error .errAlign ∧
    decode Config.default (.ofBits 0x10800000003#41) = .error .errAddr ∧
    decode Config.default (.ofBits 0x1ffffffffff#41) = .error .errAlign ∧
    decode Config.default (.ofBits 0x1fcffffffff#41) = .error .errAddr := by decide

/-- R61: the hexadecimal form of two lines. -/
theorem test_encode :
    (encode (.wr (Reg.blk 0).addr 0x61626380#32)).toBits = 0x14061626380#41 ∧
    (encode .shaBlock).toBits = 0x10000000002#41 := by decide

/-! ### One step each -/

/-- V31 rows 8 and 12, through the host's interface: the transaction is placed where the next step fetches it. -/
theorem test_rd :
    see last (step ((loaded 0x50#32 (block 0x61626380#32 0#32 0x18#32)).withFetchWord 41 0x00400000000)) =
      some (some ⟨.okay, 0x50#32⟩) ∧
    see last (step ((loaded 0x50#32 (block 0x61626380#32 0#32 0x18#32)).withFetchWord 41 0x07c00000000)) =
      some (some ⟨.okay, 0x18#32⟩) := by decide

/-- V31 rows 14, 17, 18, 19 and V32: a read's errors. -/
theorem test_rd_errors :
    answer Config.default 0x04200000000#41 = some ⟨.errAlign, 0#32⟩ ∧
    answer Config.default 0x03c00000000#41 = some ⟨.errAddr, 0#32⟩ ∧
    answer Config.default 0x0b400000000#41 = some ⟨.errAddr, 0#32⟩ ∧
    answer Config.default 0x0fc00000000#41 = some ⟨.errAddr, 0#32⟩ ∧
    answer noRmd 0x0a000000000#41 = some ⟨.errAddr, 0#32⟩ := by decide

/-- V31 rows 11, 37 and 43: the last block word, a SHA-256 word, a RIPEMD-160 word. -/
theorem test_wr :
    see State.blk (exec (.wr 0x7C#8 0x18#32) (loaded 0#32 (block 0x61626380#32 0#32 0#32))) =
      some (block 0x61626380#32 0#32 0x18#32) ∧
    see (fun s => (s.h[0], s.h[1])) (exec (.wr 0x84#8 0#32) { State.reset with h := Sha.iv }) =
      some (0x6a09e667#32, 0#32) ∧
    see (fun s => (s.r[0], s.r[1])) (exec (.wr 0xA0#8 0x01234567#32) { State.reset with r := Rmd.iv }) =
      some (0x01234567#32, 0xefcdab89#32) := by decide

/-- V31 rows 13, 16, 20, 21, 23 and 27: a write's errors, alignment first; nothing is written. -/
theorem test_wr_errors :
    answer Config.default 0x14112345678#41 = some ⟨.errAlign, 0#32⟩ ∧
    answer Config.default 0x10800000001#41 = some ⟨.errAddr, 0#32⟩ ∧
    answer Config.default 0x10900000000#41 = some ⟨.errAlign, 0#32⟩ ∧
    answer Config.default 0x10100000099#41 = some ⟨.errAlign, 0#32⟩ ∧
    answer Config.default 0x10000000004#41 = some ⟨.errCmd, 0#32⟩ ∧
    answer Config.default 0x10000000102#41 = some ⟨.errCmd, 0#32⟩ ∧
    see State.blk (transact (.ofBits 0x14112345678#41) (loaded 0#32 (block 0x61626380#32 0#32 0#32))) =
      some (block 0x61626380#32 0#32 0#32) := by decide

/-- V34: `NOP` changes none of the words. -/
theorem test_nop : see (fun s => (s.len, s.h, s.r, last s)) (exec .nop { loaded 3#32 (block 1#32 2#32 3#32) with h := Sha.iv }) =
    some (3#32, Sha.iv, Vector.replicate 5 0#32, some ⟨.okay, 0#32⟩) := by decide

/-- R90: after `SHA_INIT`, `H[7]` is 0x5be0cd19 and `H[0]` is 0x6a09e667. -/
theorem test_shaInit :
    see (fun s => (s.h[0], s.h[7])) (exec .shaInit State.reset) = some (0x6a09e667#32, 0x5be0cd19#32) := by decide

/-- V2: the padded message "abc". -/
theorem test_shaBlock_abc :
    see State.h (exec .shaBlock { loaded 0#32 (block 0x61626380#32 0#32 0x18#32) with h := Sha.iv }) =
      some #v[0xba7816bf#32, 0x8f01cfea#32, 0x414140de#32, 0x5dae2223#32, 0xb00361a3#32, 0x96177a9c#32, 0xb410ff61#32,
        0xf20015ad#32] := by decide +kernel

/-- V4: from the reset state. -/
theorem test_shaBlock_reset :
    see State.h (exec .shaBlock State.reset) =
      some #v[0x7ca51614#32, 0x425c3ba8#32, 0xce54dd2f#32, 0xc2020ae7#32, 0xb6e574d1#32, 0x98136d0f#32, 0xae7e26cc#32,
        0xbf0be7a6#32] := by decide +kernel

/-- V12 and R93: "abc" with stale bytes everywhere, the old `H` ignored. -/
theorem test_midstate_stale :
    see State.h (exec .midstate
      { loaded 3#32 ((Vector.replicate 16 0xdeadbeef#32).set 0 0x616263ef#32) with h := Vector.replicate 8 1#32 }) =
      some #v[0xba7816bf#32, 0x8f01cfea#32, 0x414140de#32, 0x5dae2223#32, 0xb00361a3#32, 0x96177a9c#32, 0xb410ff61#32,
        0xf20015ad#32] := by decide +kernel

/-- V14: 56 bytes, so no length field in the first block. -/
theorem test_midstate_56 :
    see State.h (exec .midstate (loaded 56#32 ((Vector.replicate 16 0x61616161#32).set 14 0#32))) =
      some #v[0x97539b85#32, 0x1c7ee50b#32, 0x0b226ec5#32, 0x4b1f3dbb#32, 0xe4f116c6#32, 0xe49b2dd0#32, 0x31444d1e#32,
        0x25354f3a#32] := by decide +kernel

/-- R118 and V32: `RMD_INIT` with and without the unit. -/
theorem test_rmdInit :
    see (fun s => (s.r[0], s.r[4], last s)) (exec .rmdInit State.reset) =
      some (0x67452301#32, 0xc3d2e1f0#32, some ⟨.okay, 0#32⟩) ∧
    see (fun s => (s.r[0], last s)) (exec .rmdInit (State.resetOf noRmd)) = some (0#32, some ⟨.errCmd, 0#32⟩) := by decide

/-- V25: the padded message "abc". -/
theorem test_rmdBlock_abc :
    see State.r (exec .rmdBlock { loaded 0#32 (block 0x61626380#32 0x18000000#32 0#32) with r := Rmd.iv }) =
      some #v[0xf708b28e#32, 0x7a985de0#32, 0x8e4a049b#32, 0x87b0c698#32, 0xfc0b5af1#32] := by decide +kernel

/-- V26: from the reset state. -/
theorem test_rmdBlock_reset :
    see State.r (exec .rmdBlock State.reset) =
      some #v[0x6bb9fe69#32, 0x3d09c7c0#32, 0x48ed6a0e#32, 0x7d117c5d#32, 0xadc8e12d#32] := by decide +kernel

/-- V34: `CLEAR` leaves zeros, not the IV. -/
theorem test_clear :
    see (fun s => (s.len, s.blk[0], s.h[0], s.r[4], last s))
      (exec .clear { loaded 3#32 (block 0x61626380#32 0#32 0x18#32) with h := Sha.iv, r := Rmd.iv }) =
      some (0#32, 0#32, 0#32, 0#32, some ⟨.okay, 0#32⟩) := by decide

/-- R26, R27: a reset event zeroes the elements and answers nothing. -/
theorem test_reset_event :
    see (fun s => (s.len, s.h[0], s.responses, s.pending))
      (step { loaded 3#32 (block 1#32 2#32 3#32) with h := Sha.iv, pending := [.reset] }) =
      some (0#32, 0#32, [], []) := by decide

/-- R83's examples of the arithmetic, and R8's of the byte orders on the word of R75. -/
theorem test_word_primitives :
    (0xffffffff#32 : Word) + 1#32 = 0#32 ∧ rotr 0x00000001#32 1 = 0x80000000#32 ∧
    (0x80000001#32 : Word) >>> 1 = 0x40000000#32 ∧
    beBytes 0x61626380#32 = [0x61#8, 0x62#8, 0x63#8, 0x80#8] ∧ bswap 0x61626380#32 = 0x80636261#32 ∧
    le32 0x61#8 0x62#8 0x63#8 0x80#8 = 0x80636261#32 := by decide

/-! ### Witnesses: the hypotheses of each statement, met together -/

theorem witness_ResetZeroesEveryElement :
    (∃ c : Config, c.rmdPresent = true) ∧
    ∃ (s : State) (rest : List PortEvent), s.pending = .reset :: rest ∧ s.cfg.rmdPresent = true ∧ s.h ≠ Vector.replicate 8 0#32 :=
  ⟨⟨Config.default, rfl⟩, { State.reset with h := Sha.iv, pending := [.reset] }, [], rfl, rfl, by decide⟩

/-- An instruction, an error of each kind, a reset, and no event. -/
theorem witness_StepRunsDecodedInstruction :
    (∃ (s : State) (t : Transaction) (rest : List PortEvent) (i : Instr),
      s.pending = .transaction t :: rest ∧ decode s.cfg t = .ok i) ∧
    (∀ e : BusError, ∃ (s : State) (t : Transaction) (rest : List PortEvent),
      s.pending = .transaction t :: rest ∧ decode s.cfg t = .error e) ∧
    (∃ (s : State) (rest : List PortEvent), s.pending = .reset :: rest) ∧ ∃ s : State, s.pending = [] := by
  refine ⟨⟨State.reset.issue (ctrlWrite 1#32), ctrlWrite 1#32, [], .shaInit, rfl, rfl⟩, fun e => ?_,
    ⟨{ State.resetOf noRmd with pending := [.reset] }, [], rfl⟩, State.reset, rfl⟩
  cases e
  · exact ⟨State.reset.issue ⟨true, 0x41#8, 0#32⟩, ⟨true, 0x41#8, 0#32⟩, [], rfl, rfl⟩
  · exact ⟨State.reset.issue ⟨false, 0xFC#8, 0#32⟩, ⟨false, 0xFC#8, 0#32⟩, [], rfl, rfl⟩
  · exact ⟨State.reset.issue (ctrlWrite 4#32), ctrlWrite 4#32, [], rfl, rfl⟩

/-- On a core without the unit, with an error in the host's log. -/
theorem witness_StepKeepsInvariant :
    ∃ s t : State, s.Inv ∧ step s = .next t ∧ s.cfg.rmdPresent = false ∧ s.responses ≠ [] :=
  ⟨{ State.resetOf noRmd with pending := [.transaction (ctrlWrite 1#32)], responses := [⟨.errCmd, 0#32⟩] }, _,
    ⟨fun _ => rfl, fun p hp _ => by simp at hp; subst hp; rfl⟩, rfl, rfl, by decide⟩

theorem witness_QueueServedInIssueOrder : ∃ s : State, s.pending = [] := ⟨State.reset, rfl⟩

/-- One transaction for each of the five clauses, at the ends of the ranges. -/
theorem witness_DecodeOrderAlignmentMappingKind :
    (0xFF#8 : Addr).toNat % 4 ≠ 0 ∧
    ((0x08#8 : Addr).toNat % 4 = 0 ∧ UnmappedAddress Config.default 8) ∧
    ((0xFC#8 : Addr).toNat % 4 = 0 ∧ UnmappedAddress Config.default 252) ∧
    ((0xB0#8 : Addr).toNat % 4 = 0 ∧ UnmappedAddress noRmd 176 ∧ ¬ UnmappedAddress Config.default 176) ∧
    ((0x9C#8 : Addr).toNat % 4 = 0 ∧ ¬ UnmappedAddress noRmd 156 ∧ (0x9C#8 : Addr) ≠ 0x00#8) ∧
    (decodeCommand noRmd 0x20#32 = .ok .clear ∧ decodeCommand noRmd 0x12#32 = .error .errCmd) := by
  unfold UnmappedAddress; decide

theorem witness_DecodeOfEncodeIsTheInstruction :
    Instr.wellFormed Config.default (.rd 0x00#8) = true ∧ Instr.wellFormed Config.default (.rd 0xB0#8) = true ∧
    Instr.wellFormed noRmd (.wr 0x04#8 0xffffffff#32) = true ∧ Instr.wellFormed noRmd .clear = true ∧
    Instr.wellFormed Config.default .rmdBlock = true := by decide

theorem witness_EncodeOfDecodeIsTheTransaction :
    decode Config.default ⟨false, 0x00#8, 0xffffffff#32⟩ = .ok (.rd 0x00#8) ∧
    decode noRmd ⟨true, 0x9C#8, 1#32⟩ = .ok (.wr 0x9C#8 1#32) := by decide

/-- A read that succeeds, a write, an error. -/
theorem witness_ResponseDataRule :
    (∃ (s u : State) (t : Transaction), transact t s = .next u ∧ t.we = false ∧ last u = some ⟨.okay, 7#32⟩) ∧
    (∃ (s u : State) (t : Transaction), transact t s = .next u ∧ t.we = true) ∧
    (∃ (s u : State) (t : Transaction) (p : Response), transact t s = .next u ∧ last u = some p ∧ p.resp ≠ .okay) :=
  ⟨⟨loaded 7#32 (block 0#32 0#32 0#32), _, ⟨false, 0x04#8, 9#32⟩, rfl, rfl, by decide⟩,
    ⟨State.reset, _, ⟨true, 0x04#8, 9#32⟩, rfl, rfl⟩,
    ⟨State.reset, _, ⟨true, 0x08#8, 9#32⟩, ⟨.errAddr, 0#32⟩, rfl, by decide, by decide⟩⟩

theorem witness_ErrAlignExactlyWhenMisaligned :
    (0x01#8 : Addr).toNat % 4 ≠ 0 ∧
    ∃ (s u : State) (t : Transaction) (p : Response), transact t s = .next u ∧ u.responses = s.responses ++ [p] ∧
      p.resp = .errAlign :=
  ⟨by decide, State.reset, _, ⟨true, 0x01#8, 0x99#32⟩, _, rfl, rfl, rfl⟩

theorem witness_ErrAddrExactlyWhenUnmapped :
    ((0x3C#8 : Addr).toNat % 4 = 0 ∧ UnmappedAddress Config.default 0x3C) ∧
    ((0xB4#8 : Addr).toNat % 4 = 0 ∧ UnmappedAddress Config.default 0xB4) ∧
    ((0xA0#8 : Addr).toNat % 4 = 0 ∧ UnmappedAddress noRmd 0xA0) ∧
    ∃ (s u : State) (t : Transaction) (p : Response), transact t s = .next u ∧ u.responses = s.responses ++ [p] ∧
      p.resp = .errAddr :=
  ⟨by unfold UnmappedAddress; decide, by unfold UnmappedAddress; decide, by unfold UnmappedAddress; decide,
    State.reset, _, ⟨false, 0xFC#8, 0#32⟩, _, rfl, rfl, rfl⟩

/-- (a) a reserved bit, (b) an unassigned `op`, (c) an `op` of the absent unit (R58). -/
theorem witness_ErrCmdExactlyForIllegalCommandWords :
    IllegalCommandWord Config.default 0x102#32 ∧ IllegalCommandWord Config.default 0x13#32 ∧
    IllegalCommandWord noRmd 0x11#32 ∧ ¬ IllegalCommandWord Config.default 0x11#32 ∧
    ∃ (s u : State) (t : Transaction) (p : Response), transact t s = .next u ∧ u.responses = s.responses ++ [p] ∧
      p.resp = .errCmd :=
  ⟨by unfold IllegalCommandWord; decide, by unfold IllegalCommandWord; decide, by unfold IllegalCommandWord; decide,
    by unfold IllegalCommandWord; decide, State.reset, _, ctrlWrite 4#32, _, rfl, rfl, rfl⟩

theorem witness_ErrorsDoNotLatch :
    ∃ (s u v w : State) (t t' : Transaction) (p q : Response),
      transact t s = .next u ∧ u.responses = s.responses ++ [p] ∧ p.resp ≠ .okay ∧
      transact t' u = .next v ∧ transact t' s = .next w ∧ w.responses = s.responses ++ [q] :=
  ⟨State.reset, _, _, _, ⟨true, 0x41#8, 1#32⟩, ⟨true, 0x04#8, 1#32⟩, _, _, rfl, rfl, by decide, rfl, rfl, rfl⟩

theorem witness_ResponsesAreNotRead :
    ∃ (s u : State) (t : Transaction), transact t s = .next u :=
  ⟨State.reset, _, ⟨true, 0x04#8, 1#32⟩, rfl⟩

/-- One address for each clause, at both ends of each range: misaligned, unmapped, `CTRL`, `LEN`, `BLK`, `H`, `R`. -/
theorem witness_ReadAnswersTheAddressedWord :
    (0x41#8 : Addr).toNat % 4 ≠ 0 ∧
    ((0x3C#8 : Addr).toNat % 4 = 0 ∧ UnmappedAddress Config.default 0x3C) ∧ (0x00#8 : Addr).toNat = 0x00 ∧
    (0x04#8 : Addr).toNat = 0x04 ∧ (0x40#8 : Addr).toNat = 0x40 + 4 * (0 : Fin 16).val ∧
    (0x7C#8 : Addr).toNat = 0x40 + 4 * (15 : Fin 16).val ∧ (0x80#8 : Addr).toNat = 0x80 + 4 * (0 : Fin 8).val ∧
    (0x9C#8 : Addr).toNat = 0x80 + 4 * (7 : Fin 8).val ∧ (0xA0#8 : Addr).toNat = 0xA0 + 4 * (0 : Fin 5).val ∧
    (0xB0#8 : Addr).toNat = 0xA0 + 4 * (4 : Fin 5).val ∧ State.reset.cfg.rmdPresent = true := by
  unfold UnmappedAddress; decide

/-- The same addresses, and a command word of each kind at 0x00. -/
theorem witness_WriteSetsTheAddressedWord :
    (0xFF#8 : Addr).toNat % 4 ≠ 0 ∧ ((0xB4#8 : Addr).toNat % 4 = 0 ∧ UnmappedAddress Config.default 0xB4) ∧
    IllegalCommandWord Config.default 0x80000000#32 ∧
    decode Config.default ⟨true, 0x00#8, 0x12#32⟩ = .ok .rmdBlock ∧ (0x04#8 : Addr).toNat = 0x04 ∧
    (0x7C#8 : Addr).toNat = 0x40 + 4 * (15 : Fin 16).val ∧ (0x9C#8 : Addr).toNat = 0x80 + 4 * (7 : Fin 8).val ∧
    (0xB0#8 : Addr).toNat = 0xA0 + 4 * (4 : Fin 5).val ∧ State.reset.cfg.rmdPresent = true := by
  unfold UnmappedAddress IllegalCommandWord; decide

theorem witness_BlockWordWriteSetsFourBytes :
    (∃ (i : Fin 16) (k : Fin 64), k.val / 4 ≠ i.val) ∧ ∃ i j : Fin 16, j ≠ i :=
  ⟨⟨15, 59, by decide⟩, 15, 0, by decide⟩

theorem witness_NoRegisterAliases :
    (∃ (c : Config) (a a' : Addr) (g : Reg), locate c a = .ok g ∧ locate c a' = .ok g) ∧
    (∃ (c : Config) (g : Reg), ∀ i : Fin 5, g = .r i → c.rmdPresent = true) ∧
    ∃ (s t : State) (g g' : Reg) (w : Word), g ≠ .ctrl ∧ g' ≠ g ∧ exec (.wr g.addr w) s = .next t :=
  ⟨⟨noRmd, 0x9C#8, 0x9C#8, .h 7, rfl, rfl⟩, ⟨Config.default, .r 4, fun _ _ => rfl⟩,
    ⟨State.reset, _, .blk 15, .h 0, 5#32, by decide, by decide, rfl⟩⟩

theorem witness_ReadAfterWriteReturnsTheWord :
    ∃ (s : State) (g : Reg), g ≠ .ctrl ∧ ∀ i : Fin 5, g = .r i → s.cfg.rmdPresent = true :=
  ⟨State.reset, .r 0, by decide, fun _ _ => rfl⟩

/-- A write; a RIPEMD-160 command on a core with the unit; another command on a core without it. -/
theorem witness_ReadsPureWritesIdempotent :
    (∃ (s t u : State) (a : Addr) (w : Word), a ≠ 0x00#8 ∧ exec (.wr a w) s = .next t ∧ exec (.wr a w) t = .next u) ∧
    (∃ (s : State) (k : Command), (k = .rmdInit ∨ k = .rmdBlock) ∧ s.cfg.rmdPresent = true) ∧
    ∃ (s : State) (k : Command), (k = .rmdInit ∨ k = .rmdBlock → s.cfg.rmdPresent = true) ∧ s.cfg.rmdPresent = false :=
  ⟨⟨State.reset, _, _, 0x7C#8, 9#32, by decide, rfl, rfl⟩, ⟨State.reset, .rmdBlock, .inr rfl, rfl⟩,
    ⟨State.resetOf noRmd, .clear, by decide, rfl⟩⟩

theorem witness_RotationsMoveBits : ∃ n i : Nat, 0 < n ∧ n < 32 ∧ i < 32 := ⟨31, 31, by decide⟩
theorem witness_ShaFunctionsBitByBit : ∃ i : Nat, i < 32 := ⟨31, by decide⟩
theorem witness_ShaBlockIsTheTransform :
    (∃ t : Nat, 16 ≤ t ∧ t ≤ 63) ∧ ∃ t : Nat, t ≤ 63 := ⟨⟨16, by decide⟩, ⟨63, by decide⟩⟩

/-- With the length field and without it. -/
theorem witness_MidstateTransformsThePaddedBlock :
    (∃ (s : State) (k : Fin 64), s.len.toNat ≤ 55 ∧ k.val < 60) ∧ ∃ (s : State) (k : Fin 64), 55 < s.len.toNat ∧ 60 ≤ k.val :=
  ⟨⟨loaded 55#32 (block 0#32 0#32 0#32), 59, by decide⟩, ⟨loaded 56#32 (block 0#32 0#32 0#32), 60, by decide⟩⟩

/-- Two different buffers and accumulators that agree below the length. -/
theorem witness_MidstateIsStateless :
    ∃ s s' : State, s'.len = s.len ∧ (∀ k : Fin 64, k.val < s.len.toNat → blkByte s'.blk k = blkByte s.blk k) ∧
      s'.blk ≠ s.blk ∧ s'.h ≠ s.h :=
  ⟨loaded 3#32 (block 0x61626300#32 0#32 0#32), { loaded 3#32 (block 0x616263ef#32 7#32 0#32) with h := Sha.iv },
    rfl, by decide, by decide, by decide⟩

theorem witness_MidstateOfLongInputIsInitThenBlock :
    (∃ s : State, s.len.toNat = 64) ∧ ∃ s : State, 64 ≤ s.len.toNat :=
  ⟨⟨loaded 64#32 (block 0#32 0#32 0#32), by decide⟩, ⟨loaded 0xffffffff#32 (block 0#32 0#32 0#32), by decide⟩⟩

theorem witness_PaddingBoundaryAt55And56 :
    (∃ k : Fin 64, 56 ≤ k.val ∧ k.val ≤ 59) ∧ ∃ k : Fin 64, 57 ≤ k.val := ⟨⟨59, by decide⟩, ⟨63, by decide⟩⟩

theorem witness_MidstateAgreesWithComputeMidstate :
    ∃ (s : State) (m : List Byte), m.length < 2 ^ 32 ∧ s.len = BitVec.ofNat 32 m.length ∧
      ∀ (k : Fin 64) (hk : k.val < m.length), blkByte s.blk k = m[k.val] :=
  ⟨loaded 3#32 (block 0x616263ef#32 0#32 0#32), [0x61#8, 0x62#8, 0x63#8], by decide, by decide, by decide⟩

theorem witness_ShortMidstateIsTheDigest : ∃ m : List Byte, m.length ≤ 55 ∧ m ≠ [] :=
  ⟨List.replicate 55 0x61#8, by decide, by decide⟩

theorem witness_OnlyTheFirstBlockParticipates :
    ∃ m m' : List Byte, 64 ≤ m.length ∧ 64 ≤ m'.length ∧ m.take 64 = m'.take 64 ∧ m ≠ m' :=
  ⟨List.replicate 80 1#8, List.replicate 64 1#8, by decide⟩

theorem witness_RmdInitLoadsRiv :
    (∃ s : State, s.cfg.rmdPresent = true) ∧ ∃ s : State, s.cfg.rmdPresent = false :=
  ⟨⟨State.reset, rfl⟩, ⟨State.resetOf noRmd, rfl⟩⟩

theorem witness_RmdBlockIsTheCompression :
    (∃ s : State, s.cfg.rmdPresent = true) ∧ (∃ j : Nat, j ≤ 79) ∧ ∃ s : State, s.cfg.rmdPresent = false :=
  ⟨⟨State.reset, rfl⟩, ⟨79, by decide⟩, ⟨State.resetOf noRmd, rfl⟩⟩

theorem witness_RmdFunctionsBitByBit : ∃ i : Nat, i < 32 := ⟨0, by decide⟩

theorem witness_UnitsShareOnlyTheBlock :
    (∃ (s t : State) (i : Instr), (i = .rmdInit ∨ i = .rmdBlock) ∧ exec i s = .next t) ∧
    ∃ (s t : State) (i : Instr), (i = .shaInit ∨ i = .shaBlock ∨ i = .midstate) ∧ exec i s = .next t :=
  ⟨⟨State.reset, _, .rmdInit, .inl rfl, rfl⟩, ⟨State.reset, _, .shaInit, .inl rfl, rfl⟩⟩

/-- Each clause on a core without the unit: its command, its first and last address, and a transaction of neither. -/
theorem witness_AbsentUnitOnlyRemovesItsOwn :
    (State.resetOf noRmd).cfg.rmdPresent = false ∧
    (∃ t : Transaction, t.we = true ∧ t.addr = 0x00#8 ∧ (t.wdata = 0x11#32 ∨ t.wdata = 0x12#32)) ∧
    (∃ t : Transaction, t.addr.toNat = 0xA0 + 4 * (0 : Fin 5).val) ∧
    (∃ t : Transaction, t.addr.toNat = 0xA0 + 4 * (4 : Fin 5).val) ∧
    ∃ t : Transaction, ¬ (t.we = true ∧ t.addr = 0x00#8 ∧ (t.wdata = 0x11#32 ∨ t.wdata = 0x12#32)) ∧
      ∀ i : Fin 5, t.addr.toNat ≠ 0xA0 + 4 * i.val :=
  ⟨rfl, ⟨ctrlWrite 0x12#32, by decide⟩, ⟨⟨true, 0xA0#8, 1#32⟩, by decide⟩, ⟨⟨false, 0xB0#8, 1#32⟩, by decide⟩,
    ⟨⟨true, 0xB4#8, 1#32⟩, by decide⟩⟩

theorem witness_ClearLeavesTheResetElements : ∃ s : State, s.cfg.rmdPresent = true := ⟨State.reset, rfl⟩

theorem witness_NoCommandFailsOnItsData :
    (∃ (s : State) (k : Command), (k = .rmdInit ∨ k = .rmdBlock) ∧ s.cfg.rmdPresent = true) ∧
    ∃ (s : State) (k : Command), (k = .rmdInit ∨ k = .rmdBlock → s.cfg.rmdPresent = true) ∧ s.cfg.rmdPresent = false :=
  ⟨⟨State.reset, .rmdBlock, .inr rfl, rfl⟩, ⟨State.resetOf noRmd, .midstate, by decide, rfl⟩⟩

theorem witness_InputIsImmutableToTheCore :
    (∃ (s t : State) (i : Instr),
      (i = .shaInit ∨ i = .shaBlock ∨ i = .midstate ∨ i = .rmdInit ∨ i = .rmdBlock ∨ i = .nop) ∧ exec i s = .next t) ∧
    ∃ s t : State, step s = .next t ∧ (t.blk ≠ s.blk ∨ t.len ≠ s.len) :=
  ⟨⟨State.reset, _, .shaInit, .inl rfl, rfl⟩,
    ⟨State.reset.issue ⟨true, 0x04#8, 1#32⟩, _, rfl, .inr (by decide)⟩⟩

/-- A transaction that decodes, with an element its row does not name of each kind, and one that does not decode. -/
theorem witness_WriteSummary :
    (∃ (s t : State) (x : Transaction) (i : Instr) (j : Fin 16), transact x s = .next t ∧ decode s.cfg x = .ok i ∧
      ¬ (writeRow s.cfg i).len ∧ ¬ (writeRow s.cfg i).blk j ∧ ¬ (writeRow s.cfg i).h 7 ∧ ¬ (writeRow s.cfg i).r 4) ∧
    ∃ (s t : State) (x : Transaction) (e : BusError), transact x s = .next t ∧ decode s.cfg x = .error e :=
  ⟨⟨State.reset, _, ⟨true, 0x40#8, 1#32⟩, .wr 0x40#8 1#32, 15, rfl, rfl, by simp [writeRow], by simp [writeRow],
      by simp [writeRow], by simp [writeRow]⟩,
    ⟨State.reset, _, ⟨true, 0x41#8, 1#32⟩, .errAlign, rfl, rfl⟩⟩

theorem witness_WordOrderNeverReachesTheCore :
    ∃ (s u : State) (t : Transaction), transact t s = .next u := ⟨State.reset, _, ctrlWrite 1#32, rfl⟩

theorem witness_Sha256PaddingRule : ∃ m : List Byte, m.length < 2 ^ 61 ∧ m.length < 2 ^ 29 :=
  ⟨List.replicate 56 0x61#8, by decide⟩
theorem witness_Rmd160PaddingRule : ∃ m : List Byte, m.length < 2 ^ 61 := ⟨List.replicate 56 0x61#8, by decide⟩
theorem witness_Sha256SequenceGivesTheDigest : ∃ m : List Byte, m.length < 2 ^ 61 :=
  ⟨List.replicate 56 0x61#8, by decide⟩
theorem witness_Rmd160SequenceGivesTheDigest :
    ∃ (m : List Byte) (s : State), m.length < 2 ^ 61 ∧ s.cfg.rmdPresent = true :=
  ⟨List.replicate 56 0x61#8, State.reset, by decide⟩
theorem witness_MidstateOfSequenceGivesComputeMidstate : ∃ m : List Byte, m.length < 2 ^ 32 :=
  ⟨List.replicate 80 0x61#8, by decide⟩

/-- The midstate of the first 64 bytes of a message of 80 bytes. -/
theorem witness_ResumeFinishesTheDigest :
    ∃ (m : List Byte) (s0 t0 : State), 64 ≤ m.length ∧ m.length < 2 ^ 61 ∧ 64 ≤ s0.len.toNat ∧
      s0.blk = Seq.blockAt m 0 ∧ exec .midstate s0 = .next t0 :=
  ⟨List.replicate 80 0x61#8, loaded 80#32 (Seq.blockAt (List.replicate 80 0x61#8) 0), _, by decide, by decide,
    by decide, rfl, rfl⟩

theorem witness_AddrPayloadSequence :
    ∃ (pubkey : List Byte) (s : State), pubkey.length < 2 ^ 61 ∧ s.cfg.rmdPresent = true :=
  ⟨0x02#8 :: List.replicate 32 0x00#8, State.reset, by decide⟩

end Sys2Proof.Tests
end

/-! ## 00_scope.md: the rotations (R8) and the word order (R6) -/

namespace Sys2Proof

/-! ### Rotations as permutations of the bit positions -/

/-- `ROTR` by `n` moves bit `(i + n) mod 32` to bit `i`. -/
theorem rotr_getLsbD_mod (x : Word) {n i : Nat} (hn : n ≤ 32) (hi : i < 32) :
    (rotr x n).getLsbD i = x.getLsbD ((i + n) % 32) := by
  rw [rotr_getLsbD, Nat.add_comm n i]
  by_cases h : i + n < 32
  · have hlow : i < 32 - n := by omega
    simp [hlow, Nat.mod_eq_of_lt h]
  · have hhigh : ¬ i < 32 - n := by omega
    have hwrap : (i + n) % 32 = i - (32 - n) := by omega
    have hout : x.getLsbD (i + n) = false := BitVec.getLsbD_of_ge x _ (by omega)
    simp [hi, hhigh, hwrap, hout]

/-- `ROTL` by `n` moves bit `(i + (32 - n)) mod 32` to bit `i`. -/
theorem rotl_getLsbD_mod (x : Word) {n i : Nat} (hi : i < 32) :
    (rotl x n).getLsbD i = x.getLsbD ((i + (32 - n)) % 32) :=
  rotr_getLsbD_mod x (Nat.sub_le 32 n) hi

/-- `ROTL` by `n` moves bit `i` to bit `(i + n) mod 32`. -/
theorem rotl_getLsbD_add_mod (x : Word) {n i : Nat} (hn : n ≤ 32) (hi : i < 32) :
    (rotl x n).getLsbD ((i + n) % 32) = x.getLsbD i := by
  have hback : ((i + n) % 32 + (32 - n)) % 32 = i := by omega
  rw [rotl_getLsbD_mod x (Nat.mod_lt _ (by decide)), hback]

theorem rotl_rotr (x : Word) {n : Nat} (hn : n ≤ 32) : rotl (rotr x n) n = x := by
  apply BitVec.eq_of_getLsbD_eq
  intro i hi
  have hback : ((i + (32 - n)) % 32 + n) % 32 = i := by omega
  rw [rotl_getLsbD_mod _ hi, rotr_getLsbD_mod x hn (Nat.mod_lt _ (by decide)), hback]

/-- Settles O27: each rotation permutes the bit positions, and the two permutations are inverse. -/
theorem rotationsMoveBits : Obligations.RotationsMoveBits := by
  intro x n i _ hn hi
  exact ⟨rotr_getLsbD_mod x hn.le hi, rotl_getLsbD_add_mod x hn.le hi, rotl_rotr x hn.le⟩

/-! ### The word order is read by no decision of the core -/

/-- The core built with the word order `o` instead. -/
def Config.withWordOrder (c : Config) (o : WordOrder) : Config := { c with midstateWordOrder := o }

@[simp] theorem Config.withWordOrder_rmdPresent (c : Config) (o : WordOrder) :
    (c.withWordOrder o).rmdPresent = c.rmdPresent := rfl

@[simp] theorem Reg.exists_withWordOrder (c : Config) (o : WordOrder) (g : Reg) :
    g.exists (c.withWordOrder o) = g.exists c := by cases g <;> rfl

@[simp] theorem Command.exists_withWordOrder (c : Config) (o : WordOrder) (k : Command) :
    k.exists (c.withWordOrder o) = k.exists c := by cases k <;> rfl

/-- The decoder reads `RMD_PRESENT` and no other parameter. -/
@[simp] theorem decode_withWordOrder (c : Config) (o : WordOrder) (t : Transaction) :
    decode (c.withWordOrder o) t = decode c t := rfl

end Sys2Proof

namespace Sys2Proof.Machine

theorem transact_of_decode_error {s : State} {t : Transaction} {e : BusError} (h : decode s.cfg t = .error e) :
    transact t s = .next (s.raise e) := by simp [transact, h]

theorem transact_of_decode_ok {s : State} {t : Transaction} {i : Instr} (h : decode s.cfg t = .ok i) :
    transact t s = exec i s := by simp [transact, h]

/-- The same state of a core built with the word order `o`. -/
def State.withWordOrder (s : State) (o : WordOrder) : State := { s with cfg := s.cfg.withWordOrder o }

@[simp] theorem State.withWordOrder_cfg (s : State) (o : WordOrder) :
    (s.withWordOrder o).cfg = s.cfg.withWordOrder o := rfl

/-! Every operation of the core commutes with a change of the word order. -/

theorem State.respond_withWordOrder (s : State) (o : WordOrder) (d : Word) :
    (s.withWordOrder o).respond d = (s.respond d).withWordOrder o := rfl

theorem State.raise_withWordOrder (s : State) (o : WordOrder) (e : BusError) :
    (s.withWordOrder o).raise e = (s.raise e).withWordOrder o := rfl

theorem State.readReg_withWordOrder (s : State) (o : WordOrder) (g : Reg) :
    (s.withWordOrder o).readReg g = s.readReg g := by cases g <;> rfl

theorem State.writeReg_withWordOrder (s : State) (o : WordOrder) (g : Reg) (w : Word) :
    (s.withWordOrder o).writeReg g w = (s.writeReg g w).withWordOrder o := by cases g <;> rfl

theorem commandResult_withWordOrder (k : Command) (s : State) (o : WordOrder) :
    commandResult k (s.withWordOrder o) = (commandResult k s).withWordOrder o := by cases k <;> rfl

/-- Serving a transaction commutes with a change of the word order: the transaction decodes alike, and each of the
four things it can do commutes. -/
theorem transact_withWordOrder {t : Transaction} {s u : State} (o : WordOrder) (h : transact t s = .next u) :
    transact t (s.withWordOrder o) = .next (u.withWordOrder o) := by
  have hdec : decode (s.withWordOrder o).cfg t = decode s.cfg t := decode_withWordOrder s.cfg o t
  rcases transact_cases t s with ⟨e, hd, hu⟩ | ⟨g, ha, hx, -, hd, hu⟩ | ⟨g, ha, hx, hc, -, hd, hu⟩ |
    ⟨k, -, -, -, hx, hd, hu⟩ <;> rw [hu] at h <;> cases h
  case inl =>
    rw [transact_of_decode_error (hdec.trans hd), State.raise_withWordOrder]
  case inr.inl =>
    rw [transact_of_decode_ok (hdec.trans hd), ha, exec_rd (by simpa using hx), State.readReg_withWordOrder,
      State.respond_withWordOrder]
  case inr.inr.inl =>
    rw [transact_of_decode_ok (hdec.trans hd), ha, exec_wr (by simpa using hx) hc, State.writeReg_withWordOrder,
      State.respond_withWordOrder]
  case inr.inr.inr =>
    rw [transact_of_decode_ok (hdec.trans hd), exec_toInstr, execCommand_eq, if_pos (by simpa using hx),
      commandResult_withWordOrder, State.respond_withWordOrder]

/-- Settles O52: a change of the word order commutes with serving a transaction. -/
theorem wordOrderNeverReachesTheCore : Obligations.WordOrderNeverReachesTheCore := by
  intro s u t o h
  exact transact_withWordOrder o h

end Sys2Proof.Machine

/-! ## 10_state.md: the step (R11), reset (R26), the invariant, and what a transaction leaves alone (R18, R24, R25) -/

namespace Sys2Proof.Machine

/-! ### What a register reads after an answer, an exception and a zeroing -/

@[simp] theorem State.readReg_respond (s : State) (d : Word) (g : Reg) : (s.respond d).readReg g = s.readReg g := by
  cases g <;> rfl

@[simp] theorem State.readReg_raise (s : State) (e : BusError) (g : Reg) : (s.raise e).readReg g = s.readReg g := by
  cases g <;> rfl

theorem State.readReg_zeroAll {s : State} {g : Reg} (hx : g.exists s.cfg = true) :
    s.zeroAll.readReg g = 0x00000000#32 := by
  cases g with
  | ctrl => rfl
  | len => rfl
  | blk i => simp [State.readReg]
  | h i => simp [State.readReg]
  | r i =>
    have hp : s.cfg.rmdPresent = true := hx
    simp [State.readReg, hp]

theorem State.readReg_resetOf (c : Config) (g : Reg) : (State.resetOf c).readReg g = 0x00000000#32 := by
  cases g <;> simp [State.readReg]

theorem State.resetOf_h_ne_iv (c : Config) : (State.resetOf c).h ≠ Sha.iv := by
  rw [State.resetOf_h]
  decide

/-! ### What a step can do -/

/-- A step idles, serves a reset event, or serves a transaction. -/
theorem step_cases {s t : State} (h : step s = .next t) :
    (s.pending = [] ∧ t = s) ∨
    (∃ rest, s.pending = .reset :: rest ∧ t = { s with pending := rest }.zeroAll) ∨
    (∃ x rest, s.pending = .transaction x :: rest ∧ transact x { s with pending := rest } = .next t) := by
  rcases hq : s.pending with _ | ⟨_ | _, rest⟩
  case nil =>
    rw [step_idle hq] at h
    cases h
    exact .inl ⟨rfl, rfl⟩
  case cons.transaction x =>
    rw [step_transaction hq] at h
    exact .inr (.inr ⟨x, rest, rfl, h⟩)
  case cons.reset =>
    rw [step_reset hq] at h
    cases h
    exact .inr (.inl ⟨rest, rfl, rfl⟩)

theorem exec_clear (s : State) : exec .clear s = .next (s.zeroAll.respond 0x00000000#32) := rfl

/-! ### The invariant -/

theorem BusError.response_errorDataZero (e : BusError) : ErrorDataZero e.response := fun _ => rfl

theorem okay_errorDataZero (d : Word) : ErrorDataZero ⟨.okay, d⟩ := fun h => absurd rfl h

/-- Serving a transaction gives one response, with read data 0 if it is an error, and leaves queue and build. -/
theorem transact_answered {x : Transaction} {s t : State} (h : transact x s = .next t) :
    ∃ p, Answered s t p ∧ ErrorDataZero p := by
  rcases transact_cases x s with ⟨e, -, ht⟩ | ⟨g, -, -, -, -, ht⟩ | ⟨g, -, -, -, -, -, ht⟩ | ⟨k, -, -, -, -, -, ht⟩ <;>
    rw [ht] at h <;> cases h
  case inl => exact ⟨_, ⟨rfl, rfl, rfl⟩, BusError.response_errorDataZero e⟩
  case inr.inl => exact ⟨_, ⟨rfl, rfl, rfl⟩, okay_errorDataZero _⟩
  case inr.inr.inl => exact ⟨_, ⟨by simp, by simp, by simp⟩, okay_errorDataZero 0x00000000#32⟩
  case inr.inr.inr => exact ⟨_, ⟨by simp, by simp, by simp⟩, okay_errorDataZero 0x00000000#32⟩

/-- No transaction writes the storage of `R` on a core without the unit (log 5). -/
theorem transact_r_absent {x : Transaction} {s t : State} (h : transact x s = .next t)
    (ha : s.cfg.rmdPresent = false) : t.r = s.r := by
  rcases transact_cases x s with ⟨e, -, ht⟩ | ⟨g, -, -, -, -, ht⟩ | ⟨g, -, hx, -, -, -, ht⟩ |
    ⟨k, -, -, -, hx, -, ht⟩ <;> rw [ht] at h <;> cases h
  case inl => rfl
  case inr.inl => rfl
  case inr.inr.inl => exact writeReg_r_absent hx ha
  case inr.inr.inr => exact commandResult_r_absent hx ha

theorem State.Inv.with_pending {s : State} (hs : s.Inv) (q : List PortEvent) : { s with pending := q }.Inv :=
  ⟨hs.absentUnit, hs.errorData⟩

theorem State.Inv.zeroAll {s : State} (hs : s.Inv) : s.zeroAll.Inv where
  absentUnit ha := by
    have ha : s.cfg.rmdPresent = false := ha
    simp [ha, hs.absentUnit ha]
  errorData := hs.errorData

theorem State.Inv.transact {x : Transaction} {s t : State} (hs : s.Inv) (h : transact x s = .next t) : t.Inv := by
  obtain ⟨p, ⟨hresp, -, hcfg⟩, hp⟩ := transact_answered h
  constructor
  · intro ha
    rw [hcfg] at ha
    rw [transact_r_absent h ha, hs.absentUnit ha]
  · intro q hq
    rw [hresp, List.mem_append, List.mem_singleton] at hq
    rcases hq with hq | rfl
    · exact hs.errorData q hq
    · exact hp

/-- Settles O4: each of the three things a step can do keeps the invariant. -/
theorem stepKeepsInvariant : Obligations.StepKeepsInvariant := by
  intro s t hs h
  rcases step_cases h with ⟨-, rfl⟩ | ⟨rest, -, rfl⟩ | ⟨x, rest, -, ht⟩
  · exact hs
  · exact (hs.with_pending rest).zeroAll
  · exact (hs.with_pending rest).transact ht

/-! ### One address for each register -/

theorem locate_addr_absent {c : Config} {g : Reg} (hx : ¬ g.exists c = true) : locate c g.addr = .error .errAddr := by
  simp [locate, mapped_addr, hx]

theorem exec_wr_absent {s : State} {g : Reg} {w : Word} (hx : ¬ g.exists s.cfg = true) :
    exec (.wr g.addr w) s = .next (s.raise .errAddr) := by
  simp only [exec, execWr, locate_addr_absent hx]

/-- Settles O23: an address that names a register is that register's own address, and a write of a register that exists
is `writeReg`; of one that does not, an error. -/
theorem noRegisterAliases : Obligations.NoRegisterAliases := by
  refine ⟨fun c a a' g ha ha' => ?_, fun c g hg => locate_addr c g (Reg.exists_of hg), fun s t g g' w hc hne h => ?_⟩
  · exact (locate_eq_ok ha).1.trans (locate_eq_ok ha').1.symm
  · by_cases hx : g.exists s.cfg = true
    · rw [exec_wr hx hc] at h
      cases h
      rw [State.readReg_respond, readReg_writeReg_other s g g' w hne]
    · rw [exec_wr_absent hx] at h
      cases h
      exact State.readReg_raise s _ g'

/-! ### The input -/

/-- `CLEAR` is the only command whose result differs in `BLK` or `LEN`. -/
theorem commandResult_input {k : Command} (hk : k ≠ .clear) (s : State) :
    (commandResult k s).blk = s.blk ∧ (commandResult k s).len = s.len := by
  cases k with
  | clear => exact absurd rfl hk
  | _ => exact ⟨rfl, rfl⟩

theorem execCommand_input {k : Command} (hk : k ≠ .clear) {s t : State} (h : execCommand k s = .next t) :
    t.blk = s.blk ∧ t.len = s.len := by
  rw [execCommand_eq] at h
  split at h <;> cases h
  · exact commandResult_input hk s
  · exact ⟨rfl, rfl⟩

/-- A transaction that decodes neither to `CLEAR` nor to a `WR` leaves `BLK` and `LEN`. -/
theorem transact_input {x : Transaction} {s t : State} (h : transact x s = .next t) :
    (t.blk = s.blk ∧ t.len = s.len) ∨ decode s.cfg x = .ok .clear ∨ decode s.cfg x = .ok (.wr x.addr x.wdata) := by
  rcases transact_cases x s with ⟨e, -, ht⟩ | ⟨g, -, -, -, -, ht⟩ | ⟨g, -, -, -, -, hd, ht⟩ | ⟨k, -, -, -, -, hd, ht⟩ <;>
    rw [ht] at h <;> cases h
  case inl => exact .inl ⟨rfl, rfl⟩
  case inr.inl => exact .inl ⟨rfl, rfl⟩
  case inr.inr.inl => exact .inr (.inr hd)
  case inr.inr.inr =>
    by_cases hk : k = .clear
    · subst hk
      exact .inr (.inl hd)
    · exact .inl (commandResult_input hk s)

/-- Settles O50: the six instructions are commands other than `CLEAR`, and a step that serves neither a reset event nor
one of the two writers leaves `BLK` and `LEN`. -/
theorem inputIsImmutableToTheCore : Obligations.InputIsImmutableToTheCore := by
  constructor
  · intro s t i hi h
    obtain ⟨k, hk, rfl⟩ : ∃ k : Command, k ≠ .clear ∧ i = k.toInstr := by
      rcases hi with rfl | rfl | rfl | rfl | rfl | rfl
      exacts [⟨.shaInit, by decide, rfl⟩, ⟨.shaBlock, by decide, rfl⟩, ⟨.midstate, by decide, rfl⟩,
        ⟨.rmdInit, by decide, rfl⟩, ⟨.rmdBlock, by decide, rfl⟩, ⟨.nop, by decide, rfl⟩]
    rw [exec_toInstr] at h
    exact execCommand_input hk h
  · intro s t h hne
    rcases step_cases h with ⟨-, rfl⟩ | ⟨rest, hq, -⟩ | ⟨x, rest, hq, ht⟩
    · simp at hne
    · exact ⟨_, rest, hq, .inl rfl⟩
    · rcases transact_input ht with ⟨hblk, hlen⟩ | hd
      · exact hne.elim (absurd hblk) (absurd hlen)
      · exact ⟨_, rest, hq, .inr ⟨x, rfl, hd⟩⟩

/-! ### The write summary -/

/-- Whether a row of the write summary names a register. -/
def WriteRow.names (row : WriteRow) : Reg → Prop
  | .ctrl => False
  | .len => row.len
  | .blk i => row.blk i
  | .h i => row.h i
  | .r i => row.r i

/-- The row of a `WR` names the register at its address. -/
theorem writeRow_wr_names_self (c : Config) {g : Reg} (w : Word) (hc : g ≠ .ctrl) :
    (writeRow c (.wr g.addr w)).names g := by
  cases g with
  | ctrl => exact absurd rfl hc
  | len => exact rfl
  | blk i => exact Reg.addr_blk_toNat i
  | h i => exact Reg.addr_h_toNat i
  | r i => exact Reg.addr_r_toNat i

/-- A command leaves every register that its row does not name. -/
theorem readReg_commandResult {k : Command} {s : State} {g : Reg} (hg : ¬ (writeRow s.cfg k.toInstr).names g) :
    (commandResult k s).readReg g = s.readReg g := by
  cases k
  case nop => rfl
  case shaInit | shaBlock | midstate =>
    cases g with
    | h i => exact absurd trivial hg
    | _ => rfl
  case rmdInit | rmdBlock =>
    cases g with
    | r i => exact absurd trivial hg
    | _ => rfl
  case clear =>
    cases g with
    | ctrl => rfl
    | r i =>
      have habsent : ¬ s.cfg.rmdPresent = true := hg
      simp [commandResult, State.readReg, habsent]
    | _ => exact absurd trivial hg

/-- A transaction leaves every register that the row of its instruction does not name. -/
theorem readReg_transact {x : Transaction} {s t : State} {i : Instr} {g : Reg} (h : transact x s = .next t)
    (hi : decode s.cfg x = .ok i) (hg : ¬ (writeRow s.cfg i).names g) : t.readReg g = s.readReg g := by
  rcases transact_cases x s with ⟨e, hd, ht⟩ | ⟨g', -, -, -, -, ht⟩ | ⟨g', ha, -, hc, -, hd, ht⟩ |
    ⟨k, -, -, -, -, hd, ht⟩ <;> rw [ht] at h <;> cases h
  case inl => rw [hd] at hi; cases hi
  case inr.inl => exact State.readReg_respond s _ g
  case inr.inr.inl =>
    rw [hd] at hi
    cases hi
    have hne : g ≠ g' := by
      rintro rfl
      exact hg (ha ▸ writeRow_wr_names_self s.cfg x.wdata hc)
    rw [State.readReg_respond, readReg_writeReg_other s g' g _ hne]
  case inr.inr.inr =>
    rw [hd] at hi
    cases hi
    rw [State.readReg_respond, readReg_commandResult hg]

/-- Settles O51: the words outside the row are registers that the row does not name. -/
theorem writeSummary : Obligations.WriteSummary := by
  intro s t x h
  obtain ⟨p, ⟨-, hpending, hcfg⟩, -⟩ := transact_answered h
  refine ⟨hpending, hcfg, fun e he => ?_, fun i hi => ?_⟩
  · rw [transact_of_decode_error he] at h
    cases h
    exact sameElements_of_readReg fun g => State.readReg_raise s e g
  · have hkeep (g : Reg) (hg : ¬ (writeRow s.cfg i).names g) : t.readReg g = s.readReg g := readReg_transact h hi hg
    exact ⟨hkeep .len, fun j => hkeep (.blk j), fun j => hkeep (.h j), fun j => hkeep (.r j)⟩

/-! ### Reset and the step -/

/-- Settles O1: every register that exists reads 0 after reset and after a reset event. -/
theorem resetZeroesEveryElement : Obligations.ResetZeroesEveryElement := by
  refine ⟨fun c => ?_, rfl, fun s rest hq => ?_⟩
  · have hzero (g : Reg) := State.readReg_resetOf c g
    exact ⟨hzero .len, fun i => hzero (.blk i), fun i => hzero (.h i), fun _ i => hzero (.r i), State.resetOf_h_ne_iv c⟩
  · have hzero (g : Reg) (hx : g.exists s.cfg = true) :
        { s with pending := rest }.zeroAll.readReg g = 0x00000000#32 := State.readReg_zeroAll hx
    exact ⟨_, step_reset hq, hzero .len rfl, fun i => hzero (.blk i) rfl, fun i => hzero (.h i) rfl,
      fun hp i => hzero (.r i) hp, rfl⟩

/-- Settles O3: a step on each of the three forms of the queue. -/
theorem stepRunsDecodedInstruction : Obligations.StepRunsDecodedInstruction := by
  refine ⟨fun s t rest hq => ?_, fun s rest hq => ?_, fun s hq => step_idle hq⟩
  · rw [step_transaction hq]
    exact ⟨rfl, fun i hi => transact_of_decode_ok hi, fun e he => transact_of_decode_error he⟩
  · exact ⟨_, _, step_reset hq, rfl, rfl, exec_clear s, rfl, rfl, rfl, rfl⟩

end Sys2Proof.Machine

/-! ## 20_memory.md: byte order (R36), side effects (R38) and ordering (R41) -/

namespace Sys2Proof

/-- Only the two RIPEMD-160 commands can be missing. -/
theorem Command.exists_of {c : Config} {k : Command} (h : k = .rmdInit ∨ k = .rmdBlock → c.rmdPresent = true) :
    k.exists c = true := by
  cases k with
  | rmdInit => exact h (.inl rfl)
  | rmdBlock => exact h (.inr rfl)
  | _ => rfl

end Sys2Proof

namespace Sys2Proof.Machine

/-! ### The bytes of a block word -/

/-- Settles O26: byte `4i+j` of the block is byte `j` of word `i`, and a word is the word of its four bytes. -/
theorem blockBytesPackBigEndian : Obligations.BlockBytesPackBigEndian := by
  intro blk i
  have hbyte (j : Nat) (hj : j < 4) : blkByte blk ⟨4 * i.val + j, by omega⟩ = beByte blk[i.val] j :=
    Sha.blkByte_word i j hj _
  have h0 : blkByte blk ⟨4 * i.val, by omega⟩ = beByte blk[i.val] 0 := hbyte 0 (by decide)
  have h1 := hbyte 1 (by decide)
  have h2 := hbyte 2 (by decide)
  have h3 := hbyte 3 (by decide)
  refine ⟨?_, h0, h1, h2, h3⟩
  rw [h0, h1, h2, h3, be32_beByte]

/-! ### A queue of transactions -/

theorem coreRun_succ {s u : State} (h : step s = .next u) (n : Nat) :
    Host.Core.run Sys2Proof.core (n + 1) s = Host.Core.run Sys2Proof.core n u := by
  have hcore : Sys2Proof.core.step s = .next u := h
  simp only [Host.Core.run, hcore]

/-- Serving the head of the queue is serving that transaction with the rest of the queue set aside. -/
theorem step_queue {x : Transaction} {s u : State} (h : transact x s = .next u) (rest : List PortEvent) :
    step { s with pending := .transaction x :: rest } = .next { u with pending := rest } := by
  rw [step_transaction rfl]
  exact transact_with_pending x s u rest h

/-- Settles O6, by induction on the transactions: serving the first one commutes with queueing the others behind it. -/
theorem queueServedInIssueOrder : Obligations.QueueServedInIssueOrder := by
  intro ts
  induction ts with
  | nil =>
    rintro ⟨len, blk, h, r, cfg, pending, responses⟩ rfl
    exact ⟨_, rfl, rfl⟩
  | cons x ts ih =>
    intro s hs
    obtain ⟨u, hu⟩ := transact_next x s
    obtain ⟨-, ⟨-, hpending, -⟩, -⟩ := transact_answered hu
    obtain ⟨t, hrun, hcore⟩ := ih u (hpending.trans hs)
    exact ⟨t, (run_cons hu).trans hrun, (coreRun_succ (step_queue hu _) _).trans hcore⟩

/-! ### A read has no side effect -/

theorem readReg_of_sameElements {s t : State} (h : SameElements s t) (g : Reg) : t.readReg g = s.readReg g := by
  obtain ⟨hlen, hblk, hh, hr⟩ := h
  cases g <;> simp [State.readReg, hlen, hblk, hh, hr]

theorem Answered.cfg {s t : State} {p : Response} (h : Answered s t p) : t.cfg = s.cfg := by
  obtain ⟨-, -, hcfg⟩ := h
  exact hcfg

theorem answered_respond (s : State) (d : Word) : Answered s (s.respond d) ⟨.okay, d⟩ := ⟨rfl, rfl, rfl⟩

theorem answered_raise (s : State) (e : BusError) : Answered s (s.raise e) e.response := ⟨rfl, rfl, rfl⟩

theorem sameElements_respond (s : State) (d : Word) : SameElements s (s.respond d) := ⟨rfl, rfl, rfl, rfl⟩

theorem sameElements_raise (s : State) (e : BusError) : SameElements s (s.raise e) := ⟨rfl, rfl, rfl, rfl⟩

theorem SameElements.trans {s t u : State} (h : SameElements s t) (h' : SameElements t u) : SameElements s u :=
  sameElements_of_readReg fun g => (readReg_of_sameElements h' g).trans (readReg_of_sameElements h g)

/-- A read changes no element, and its response is fixed by the elements and the build: every state with the elements
and the build of `s` gives the response that `s` gives. -/
theorem transact_read (s : State) (a : Addr) (w : Word) :
    ∃ p, ∀ t, SameElements s t → t.cfg = s.cfg →
      ∃ u, transact ⟨false, a, w⟩ t = .next u ∧ SameElements t u ∧ Answered t u p := by
  rcases hl : locate s.cfg a with e | g
  · refine ⟨e.response, fun t _ hcfg => ⟨t.raise e, ?_, sameElements_raise t e, answered_raise t e⟩⟩
    exact transact_of_decode_error (by simp [decode, hcfg, hl])
  · obtain ⟨rfl, hx⟩ := locate_eq_ok hl
    refine ⟨⟨.okay, s.readReg g⟩, fun t hst hcfg =>
      ⟨t.respond (s.readReg g), ?_, sameElements_respond t _, answered_respond t _⟩⟩
    have hd : decode t.cfg ⟨false, g.addr, w⟩ = .ok (.rd g.addr) := by simp [decode, hcfg, hl]
    rw [transact_of_decode_ok hd, exec_rd (hcfg ▸ hx), readReg_of_sameElements hst]

theorem reads_pure (s : State) (a : Addr) (w : Word) : ∃ (u v : State) (p : Response),
    transact ⟨false, a, w⟩ s = .next u ∧ SameElements s u ∧ Answered s u p ∧
    transact ⟨false, a, w⟩ u = .next v ∧ SameElements s v ∧ Answered u v p := by
  obtain ⟨p, hread⟩ := transact_read s a w
  obtain ⟨u, hu, hsu, hpu⟩ := hread s ⟨rfl, rfl, rfl, rfl⟩ rfl
  obtain ⟨v, hv, huv, hpv⟩ := hread u hsu hpu.cfg
  exact ⟨u, v, p, hu, hsu, hpu, hv, hsu.trans huv, hpv⟩

/-! ### A register write is idempotent -/

/-- Writing to a register the word it holds changes no register. -/
theorem sameElements_writeReg {s : State} {g : Reg} {w : Word} (hc : g ≠ .ctrl) (hw : s.readReg g = w) :
    SameElements s (s.writeReg g w) := by
  refine sameElements_of_readReg fun g' => ?_
  by_cases hg : g' = g
  · rw [hg, readReg_writeReg_same s g w hc, hw]
  · exact readReg_writeReg_other s g g' w hg

theorem exec_wr_of_locate_error {s : State} {a : Addr} {e : BusError} (h : locate s.cfg a = .error e) (w : Word) :
    exec (.wr a w) s = .next (s.raise e) := by
  simp only [exec, execWr, h]

theorem exec_wr_idempotent {s t u : State} {a : Addr} {w : Word} (ha : a ≠ 0x00#8) (ht : exec (.wr a w) s = .next t)
    (hu : exec (.wr a w) t = .next u) : SameElements t u := by
  rcases hl : locate s.cfg a with e | g
  · rw [exec_wr_of_locate_error hl] at ht
    cases ht
    rw [exec_wr_of_locate_error (s := s.raise e) hl] at hu
    cases hu
    exact sameElements_raise _ e
  · obtain ⟨rfl, hx⟩ := locate_eq_ok hl
    have hc : g ≠ .ctrl := by rintro rfl; exact ha rfl
    rw [exec_wr hx hc] at ht
    cases ht
    rw [exec_wr (by simpa using hx) hc] at hu
    cases hu
    have hholds : ((s.writeReg g w).respond 0x00000000#32).readReg g = w := by
      rw [State.readReg_respond, readReg_writeReg_same s g w hc]
    exact (sameElements_writeReg hc hholds).trans (sameElements_respond _ _)

/-! ### A command executes each time it is issued -/

theorem exec_command {k : Command} {s : State} (hx : k.exists s.cfg = true) :
    exec k.toInstr s = .next ((commandResult k s).respond 0x00000000#32) := by
  rw [exec_toInstr, execCommand_eq, if_pos hx]

theorem answered_commandResult (k : Command) (s : State) :
    Answered s ((commandResult k s).respond 0x00000000#32) ⟨.okay, 0x00000000#32⟩ :=
  ⟨by simp, by simp, by simp⟩

/-- Settles O25: a read is `transact_read`, a second write of a word finds the word in its register, and a command
issued twice is its result taken twice. -/
theorem readsPureWritesIdempotent : Obligations.ReadsPureWritesIdempotent := by
  refine ⟨reads_pure, fun s t u a w => exec_wr_idempotent, fun s k hk => ?_⟩
  have hx : k.exists s.cfg = true := Command.exists_of hk
  refine ⟨_, _, exec_command hx, exec_command (by simpa using hx), answered_commandResult k s,
    answered_commandResult k _, ?_, ?_, ?_, ?_, ?_, ?_, fun hclear v hv => ?clear⟩
  case clear =>
    subst hclear
    have hzero (g : Reg) (hg : g.exists s.cfg = true) : v.readReg g = 0x00000000#32 := by
      rcases hv with rfl | rfl <;> rw [State.readReg_respond] <;> exact State.readReg_zeroAll hg
    exact ⟨hzero .len rfl, fun i => hzero (.blk i) rfl, fun i => hzero (.h i) rfl, fun hp i => hzero (.r i) hp⟩
  -- The other six commands: the elements of both states are the words of `commandResult`.
  all_goals
    rintro rfl
    exact ⟨⟨rfl, rfl, rfl, rfl⟩, ⟨rfl, rfl, rfl, rfl⟩⟩

end Sys2Proof.Machine

/-! ## 30_encoding.md: the bits of a transaction (R50), the decoder (R53 to R56), the response (R51, R52) -/

namespace Sys2Proof

/-! ### The 41 bits of a transaction -/

theorem Transaction.toBits_we (t : Transaction) : t.toBits.getLsbD 40 = t.we := by
  rw [Transaction.toBits_getLsbD]
  simp

theorem Transaction.toBits_wdata (t : Transaction) : t.toBits.extractLsb' 0 32 = t.wdata :=
  BitVec.extractLsb'_append_eq_right (a := BitVec.ofBool t.we ++ t.addr)

theorem Transaction.toBits_addr (t : Transaction) : t.toBits.extractLsb' 32 8 = t.addr := by
  calc t.toBits.extractLsb' 32 8
      = (BitVec.ofBool t.we ++ t.addr).extractLsb' 0 8 :=
        BitVec.extractLsb'_append_eq_of_le (xlo := t.wdata) (le_refl 32)
    _ = t.addr := BitVec.extractLsb'_append_eq_right

@[simp] theorem Transaction.ofBits_toBits (t : Transaction) : Transaction.ofBits t.toBits = t := by
  rw [Transaction.ofBits, t.toBits_we, t.toBits_addr, t.toBits_wdata]

theorem Transaction.toBits_ofBits (b : BitVec 41) : (Transaction.ofBits b).toBits = b := by
  apply BitVec.eq_of_getLsbD_eq
  intro i hi
  rw [Transaction.toBits_getLsbD]
  split_ifs with hdata haddr
  · simp [Transaction.ofBits, hdata]
  · have hpos : 32 + (i - 32) = i := by omega
    have hlt : i - 32 < 8 := by omega
    simp [Transaction.ofBits, hpos, hlt]
  · obtain rfl : i = 40 := by omega
    simp [Transaction.ofBits]

theorem Transaction.toBits_inj {t t' : Transaction} : t.toBits = t'.toBits ↔ t = t' :=
  ⟨fun h => by rw [← t.ofBits_toBits, h, t'.ofBits_toBits], fun h => by rw [h]⟩

/-! ### The decoder, one equation for each outcome of R53 -/

section
variable {c : Config} {t : Transaction}

theorem decode_of_locate_error {e : BusError} (h : locate c t.addr = .error e) : decode c t = .error e := by
  simp [decode, h]

theorem decode_read {g : Reg} (h : locate c t.addr = .ok g) (hw : t.we = false) : decode c t = .ok (.rd t.addr) := by
  simp [decode, h, hw]

theorem decode_write {g : Reg} (h : locate c t.addr = .ok g) (hw : t.we = true) (ha : t.addr ≠ 0x00#8) :
    decode c t = .ok (.wr t.addr t.wdata) := by
  simp [decode, h, hw, ha]

theorem decode_ctrl (hw : t.we = true) (ha : t.addr = 0x00#8) :
    decode c t = (decodeCommand c t.wdata).map Command.toInstr := by
  have hl : locate c 0x00#8 = .ok .ctrl := locate_addr c .ctrl rfl
  rw [decode, ha, hl]
  cases hk : decodeCommand c t.wdata <;> simp [hw, Except.map]

end

/-- The decoder looks at `wdata` only when `we` is set (R50). -/
theorem decode_read_wdata (c : Config) (a : Addr) (w w' : Word) :
    decode c ⟨false, a, w⟩ = decode c ⟨false, a, w'⟩ := rfl

/-- Settles O7: the fields and the bits determine each other, and a read decodes alike whatever its `wdata`. -/
theorem transactionBitsAreItsFields : Obligations.TransactionBitsAreItsFields := by
  refine ⟨fun t => ⟨t.toBits_we, t.toBits_addr, t.toBits_wdata, t.ofBits_toBits⟩,
    Transaction.toBits_ofBits, fun a w w' s => ?_⟩
  rw [Machine.transact, Machine.transact, decode_read_wdata s.cfg a w w']

/-- Settles O8: the first two clauses are what `locate` answers, the other three the decoder's equations. -/
theorem decodeOrderAlignmentMappingKind : Obligations.DecodeOrderAlignmentMappingKind := by
  intro c t
  refine ⟨fun h4 => ?_, fun h4 hu => ?_, fun h4 hu hw => ?_, fun h4 hu hw ha => ?_,
    fun ha hw => ⟨fun k hk => ?_, fun e he => ?_⟩⟩
  · exact decode_of_locate_error (locate_of_misaligned c t.addr h4)
  · exact decode_of_locate_error (locate_of_unmapped c t.addr h4 hu)
  · obtain ⟨g, hg⟩ := locate_of_mapped c t.addr h4 hu
    exact decode_read hg hw
  · obtain ⟨g, hg⟩ := locate_of_mapped c t.addr h4 hu
    exact decode_write hg hw ha
  · rw [decode_ctrl hw ha, hk]; rfl
  · rw [decode_ctrl hw ha, he]; rfl

/-! ### Command words -/

/-- The word a command is issued by (R55). -/
def Command.word (k : Command) : Word := (encode k.toInstr).wdata

theorem encode_toInstr (k : Command) : encode k.toInstr = ctrlWrite k.word := by cases k <;> rfl

/-- The only word that selects a command is the command's own (R55, R58). -/
theorem eq_word_of_decodeCommand {c : Config} {w : Word} {k : Command} (h : decodeCommand c w = .ok k) :
    w = k.word := by
  unfold decodeCommand at h
  split at h
  case isFalse => cases h
  case isTrue hrsvd =>
    have hword (n : Nat) (hn : n < 256) (hop : (cmdOp w).toNat = n) : w = BitVec.ofNat 32 n :=
      (cmdFields_eq_iff w n hn).1 ⟨hrsvd, hop⟩
    -- The rows of R55; the two of the RIPEMD-160 unit look at the build too.
    split at h <;> try split at h
    all_goals cases h
    all_goals exact hword _ (by decide) ‹_›

/-- A write to `CTRL` of any other word than those of the build's commands is illegal (R58). -/
theorem decode_ctrlWrite_illegal {c : Config} {w : Word} (h : ∀ k : Command, k.exists c = true → w ≠ k.word) :
    decode c (ctrlWrite w) = .error .errCmd := by
  rw [decode_ctrl rfl rfl]
  rcases hd : decodeCommand c w with e | k
  · rw [ctrlWrite, hd, Machine.decodeCommand_error hd]; rfl
  · exact absurd (eq_word_of_decodeCommand hd) (h k (Machine.decodeCommand_exists hd))

/-- Settles O9: a word is that of a command the build has, and selects it, or it is illegal. -/
theorem commandWordsOfOpcodeMap : Obligations.CommandWordsOfOpcodeMap := by
  intro c w
  by_cases h : ∃ k : Command, k.exists c = true ∧ w = k.word
  · obtain ⟨k, hx, rfl⟩ := h
    have hd : decode c ⟨true, 0x00#8, k.word⟩ = .ok k.toInstr := by
      rw [← Machine.decode_cmd hx, Seq.cmd, encode_toInstr, ctrlWrite]
    rw [hd]
    cases k with
    | rmdInit => exact (if_pos ⟨rfl, hx⟩).symm
    | rmdBlock => exact (if_pos ⟨rfl, hx⟩).symm
    | _ => rfl
  · have hne (k : Command) (hx : k.exists c = true) : w ≠ k.word := fun hw => h ⟨k, hx, hw⟩
    have hnop : w ≠ 0x00000000#32 := hne .nop rfl
    have hshaInit : w ≠ 0x00000001#32 := hne .shaInit rfl
    have hshaBlock : w ≠ 0x00000002#32 := hne .shaBlock rfl
    have hmidstate : w ≠ 0x00000003#32 := hne .midstate rfl
    have hrmdInit : ¬ (w = 0x00000011#32 ∧ c.rmdPresent = true) := fun ⟨hw, hx⟩ => hne .rmdInit hx hw
    have hrmdBlock : ¬ (w = 0x00000012#32 ∧ c.rmdPresent = true) := fun ⟨hw, hx⟩ => hne .rmdBlock hx hw
    have hclear : w ≠ 0x00000020#32 := hne .clear rfl
    rw [← ctrlWrite, decode_ctrlWrite_illegal hne, if_neg hnop, if_neg hshaInit, if_neg hshaBlock, if_neg hmidstate,
      if_neg hrmdInit, if_neg hrmdBlock, if_neg hclear]

/-! ### Encoding and decoding -/

/-- An instruction is a read, a write, or a command's. -/
theorem Instr.forms (i : Instr) : (∃ a, i = .rd a) ∨ (∃ a w, i = .wr a w) ∨ ∃ k : Command, i = k.toInstr := by
  cases i with
  | rd a => exact .inl ⟨a, rfl⟩
  | wr a w => exact .inr (.inl ⟨a, w, rfl⟩)
  | nop => exact .inr (.inr ⟨.nop, rfl⟩)
  | shaInit => exact .inr (.inr ⟨.shaInit, rfl⟩)
  | shaBlock => exact .inr (.inr ⟨.shaBlock, rfl⟩)
  | midstate => exact .inr (.inr ⟨.midstate, rfl⟩)
  | rmdInit => exact .inr (.inr ⟨.rmdInit, rfl⟩)
  | rmdBlock => exact .inr (.inr ⟨.rmdBlock, rfl⟩)
  | clear => exact .inr (.inr ⟨.clear, rfl⟩)

theorem locate_eq_ok_iff {c : Config} {a : Addr} :
    (∃ g, locate c a = .ok g) ↔ aligned a = true ∧ (mapped c a).isSome = true := by
  by_cases ha : aligned a = true
  · cases hm : mapped c a <;> simp [locate, ha, hm]
  · simp [locate, ha]

theorem wellFormed_rd_iff {c : Config} {a : Addr} :
    (Instr.rd a).wellFormed c = true ↔ ∃ g, locate c a = .ok g := by
  rw [locate_eq_ok_iff, Instr.wellFormed, Bool.and_eq_true]

theorem wellFormed_wr_iff {c : Config} {a : Addr} {w : Word} :
    (Instr.wr a w).wellFormed c = true ↔ (∃ g, locate c a = .ok g) ∧ a ≠ 0x00#8 := by
  rw [locate_eq_ok_iff, Instr.wellFormed, Bool.and_eq_true, Bool.and_eq_true, bne_iff_ne]

theorem wellFormed_toInstr (c : Config) (k : Command) : k.toInstr.wellFormed c = k.exists c := by cases k <;> rfl

theorem decode_encode {c : Config} {i : Instr} (h : i.wellFormed c = true) : decode c (encode i) = .ok i := by
  rcases i.forms with ⟨a, rfl⟩ | ⟨a, w, rfl⟩ | ⟨k, rfl⟩
  · obtain ⟨g, hg⟩ := wellFormed_rd_iff.1 h
    exact decode_read hg rfl
  · obtain ⟨⟨g, hg⟩, ha⟩ := wellFormed_wr_iff.1 h
    exact decode_write hg rfl ha
  · exact Machine.decode_cmd (wellFormed_toInstr c k ▸ h)

/-- Settles O11: the 41 bits give the encoded transaction back, and it decodes to the instruction. -/
theorem decodeOfEncodeIsTheInstruction : Obligations.DecodeOfEncodeIsTheInstruction := by
  intro c i h
  rw [Transaction.ofBits_toBits]
  exact decode_encode h

/-- The transaction with the ignored `wdata` of a read set to 0, as the assembler form has it (R50, R61). -/
def Transaction.canonical (t : Transaction) : Transaction :=
  { t with wdata := if t.we = true then t.wdata else 0x00000000#32 }

theorem Transaction.canonical_read {t : Transaction} (h : t.we = false) :
    t.canonical = ⟨false, t.addr, 0x00000000#32⟩ := by
  simp [Transaction.canonical, h]

theorem Transaction.canonical_write {t : Transaction} (h : t.we = true) : t.canonical = t := by
  rw [Transaction.canonical, if_pos h]

theorem decode_canonical (c : Config) (t : Transaction) : decode c t.canonical = decode c t := by
  obtain ⟨we, a, w⟩ := t
  cases we with
  | false => exact decode_read_wdata c a _ w
  | true => rfl

theorem wellFormed_and_encode_of_decode {c : Config} {t : Transaction} {i : Instr} (h : decode c t = .ok i) :
    i.wellFormed c = true ∧ encode i = t.canonical := by
  rcases decode_cases c t with ⟨e, -, hd⟩ | ⟨g, hl, hw, hd⟩ | ⟨g, hl, hw, ha, hd⟩ | ⟨-, -, e, -, hd⟩ |
    ⟨hw, ha, k, hk, hd⟩ <;> rw [hd] at h <;> cases h
  case inr.inl => exact ⟨wellFormed_rd_iff.2 ⟨g, hl⟩, (Transaction.canonical_read hw).symm⟩
  case inr.inr.inl =>
    refine ⟨wellFormed_wr_iff.2 ⟨⟨g, hl⟩, ha⟩, ?_⟩
    rw [Transaction.canonical_write hw, encode, ← hw]
  case inr.inr.inr.inr =>
    refine ⟨(wellFormed_toInstr c k).trans (Machine.decodeCommand_exists hk), ?_⟩
    rw [Transaction.canonical_write hw, encode_toInstr, ← eq_word_of_decodeCommand hk, ctrlWrite, ← hw, ← ha]

/-- Decoding and encoding are inverse between the transactions, up to the ignored `wdata`, and the instructions the
encoding admits. -/
theorem decode_eq_ok_iff {c : Config} {t : Transaction} {i : Instr} :
    decode c t = .ok i ↔ i.wellFormed c = true ∧ encode i = t.canonical :=
  ⟨wellFormed_and_encode_of_decode, fun ⟨hwf, he⟩ => by rw [← decode_canonical, ← he, decode_encode hwf]⟩

/-- Settles O12: one direction of `decode_eq_ok_iff`. -/
theorem encodeOfDecodeIsTheTransaction : Obligations.EncodeOfDecodeIsTheTransaction := by
  intro c t i h
  exact decode_eq_ok_iff.1 h

/-! ### The opcode table -/

/-- The `RD` and `WR` rows look at bit 40 alone. -/
theorem Transaction.toBits_and_we (t : Transaction) :
    t.toBits &&& 0x10000000000#41 = if t.we then 0x10000000000#41 else 0x00000000000#41 :=
  eq_of_beq (Laws.tableRow_hits_we t)

theorem hits_rd_iff (t : Transaction) (a : Addr) : (Instr.rd a).row.hits t.toBits = true ↔ t.we = false := by
  rw [OpcodeRow.hits, beq_iff_eq, Instr.row, t.toBits_and_we]
  cases t.we <;> decide

theorem hits_wr_iff (t : Transaction) (a : Addr) (w : Word) :
    (Instr.wr a w).row.hits t.toBits = true ↔ t.we = true := by
  rw [OpcodeRow.hits, beq_iff_eq, Instr.row, t.toBits_and_we]
  cases t.we <;> decide

/-- The row of a command has the one pattern its encoding is. -/
theorem row_toInstr (k : Command) : k.toInstr.row = ⟨BitVec.allOnes 41, (encode k.toInstr).toBits⟩ := by
  cases k <;> decide

theorem hits_command_iff (t : Transaction) (k : Command) :
    k.toInstr.row.hits t.toBits = true ↔ t = encode k.toInstr := by
  rw [row_toInstr, OpcodeRow.hits, beq_iff_eq, BitVec.and_allOnes, Transaction.toBits_inj]

theorem operandsOf_toInstr (t : Transaction) (k : Command) : Machine.OperandsOf t k.toInstr := by
  cases k <;> trivial

theorem encode_toInstr_eq_canonical_iff (t : Transaction) (k : Command) :
    encode k.toInstr = t.canonical ↔ t = encode k.toInstr := by
  rw [encode_toInstr]
  constructor
  · intro h
    have hw : t.we = true := (congrArg Transaction.we h).symm
    rw [h, Transaction.canonical_write hw]
  · rintro rfl
    rfl

/-- The transactions in an instruction's row with its operands are the ones that encode it, up to the ignored
`wdata`. -/
theorem encode_eq_canonical_iff (t : Transaction) (i : Instr) :
    encode i = t.canonical ↔ i.row.hits t.toBits = true ∧ Machine.OperandsOf t i := by
  rcases i.forms with ⟨a, rfl⟩ | ⟨a, w, rfl⟩ | ⟨k, rfl⟩
  · rw [hits_rd_iff, encode, Transaction.canonical, Transaction.mk.injEq]
    constructor
    · rintro ⟨hw, ha, -⟩
      exact ⟨hw.symm, ha.symm⟩
    · rintro ⟨hw, ha⟩
      exact ⟨hw.symm, ha.symm, by simp [hw]⟩
  · rw [hits_wr_iff, encode, Transaction.canonical, Transaction.mk.injEq]
    constructor
    · rintro ⟨hw, ha, hdata⟩
      rw [if_pos hw.symm] at hdata
      exact ⟨hw.symm, ha.symm, hdata.symm⟩
    · rintro ⟨hw, ha, hdata⟩
      exact ⟨hw.symm, ha.symm, by rw [if_pos hw, hdata]⟩
  · rw [hits_command_iff, encode_toInstr_eq_canonical_iff, and_iff_left (operandsOf_toInstr t k)]

/-- Settles O10: decoding is encoding backwards, and the row of R56 tells which transactions encode an instruction. -/
theorem decodeIsTheOpcodeTable : Obligations.DecodeIsTheOpcodeTable := by
  intro c t i
  rw [decode_eq_ok_iff, encode_eq_canonical_iff]

/-- Settles O13: each number's 41 bits decode by evaluation. -/
theorem writtenOutWordsDecode : Obligations.WrittenOutWordsDecode := by
  unfold Obligations.WrittenOutWordsDecode
  decide

/-! ### Responses -/

theorem Response.toBits_resp (p : Response) : p.toBits.extractLsb' 32 2 = p.resp.code :=
  BitVec.extractLsb'_append_eq_left

theorem Response.toBits_rdata (p : Response) : p.toBits.extractLsb' 0 32 = p.rdata :=
  BitVec.extractLsb'_append_eq_right

theorem BusError.resp_ne_okay (e : BusError) : e.resp ≠ .okay := by cases e <;> decide

end Sys2Proof

namespace Sys2Proof.Machine

/-- Settles O14: of what serving a transaction can do, only a read's answer carries data. -/
theorem responseDataRule : Obligations.ResponseDataRule := by
  refine ⟨⟨rfl, rfl, rfl, rfl⟩, fun p => ⟨p.toBits_resp, p.toBits_rdata⟩,
    fun s u t h => ?_⟩
  rcases transact_cases t s with ⟨e, -, hu⟩ | ⟨g, ha, hx, hw, -, hu⟩ | ⟨g, -, -, -, hw, -, hu⟩ |
    ⟨k, hw, -, -, -, -, hu⟩ <;> rw [hu] at h <;> cases h
  case inl =>
    exact ⟨e.response, rfl, fun _ hok => absurd hok e.resp_ne_okay, fun _ => rfl, fun _ => rfl⟩
  case inr.inl =>
    have hl : locate s.cfg t.addr = .ok g := ha ▸ locate_addr s.cfg g hx
    exact ⟨⟨.okay, s.readReg g⟩, rfl, fun _ _ => ⟨g, hl, rfl⟩, by simp [hw], okay_errorDataZero _⟩
  case inr.inr.inl => exact ⟨⟨.okay, 0x00000000#32⟩, by simp, by simp [hw], fun _ => rfl, fun _ => rfl⟩
  case inr.inr.inr => exact ⟨⟨.okay, 0x00000000#32⟩, by simp, by simp [hw], fun _ => rfl, fun _ => rfl⟩

end Sys2Proof.Machine

/-! ## 40_bus_access.md: RD and WR at every address (R71 to R76), a block word's bytes (R75), corner cases (R78) -/

namespace Sys2Proof

/-- The word of a command that the build has is not illegal (R58): each of the three reasons fails for it. -/
theorem Command.not_illegalCommandWord_word {c : Config} {k : Command} (hx : k.exists c = true) :
    ¬ Machine.IllegalCommandWord c k.word := by
  rintro (hrsvd | hop | ⟨hunit, habsent⟩)
  · exact hrsvd (by cases k <;> decide)
  · exact hop (by cases k <;> decide)
  · cases k
    case rmdInit | rmdBlock => exact absurd habsent (ne_false_of_eq_true hx)
    all_goals exact absurd hunit (by decide)

theorem decode_ctrlWrite_of_illegalCommandWord {c : Config} {w : Word} (h : Machine.IllegalCommandWord c w) :
    decode c (ctrlWrite w) = .error .errCmd :=
  decode_ctrlWrite_illegal fun _ hx hw => Command.not_illegalCommandWord_word hx (hw ▸ h)

end Sys2Proof

namespace Sys2Proof.Machine

/-! ### `RD` and `WR` at the address of a register, given as a number -/

theorem exec_rd_of_locate_error {s : State} {a : Addr} {e : BusError} (h : locate s.cfg a = .error e) :
    exec (.rd a) s = .next (s.raise e) := by
  simp only [exec, execRd, h]

section
variable {s : State} {a : Addr} {g : Reg}

theorem exec_rd_at (hx : g.exists s.cfg = true) (ha : a.toNat = g.addr.toNat) :
    exec (.rd a) s = .next (s.respond (s.readReg g)) := by
  rw [BitVec.eq_of_toNat_eq ha, exec_rd hx]

theorem exec_wr_at {w : Word} (hx : g.exists s.cfg = true) (hc : g ≠ .ctrl) (ha : a.toNat = g.addr.toNat) :
    exec (.wr a w) s = .next ((s.writeReg g w).respond 0x00000000#32) := by
  rw [BitVec.eq_of_toNat_eq ha, exec_wr hx hc]

end

/-- A `WR` to `CTRL` does what the core does with the transaction that issues its word as a command (R72; log 10). -/
theorem exec_wr_ctrl (s : State) (w : Word) : exec (.wr 0x00#8 w) s = transact (ctrlWrite w) s := by
  have hl : locate s.cfg 0x00#8 = .ok .ctrl := locate_addr s.cfg .ctrl rfl
  have hd : decode s.cfg (ctrlWrite w) = (decodeCommand s.cfg w).map Command.toInstr := decode_ctrl rfl rfl
  rcases hk : decodeCommand s.cfg w with e | k <;> rw [hk] at hd
  · rw [transact_of_decode_error hd]
    simp only [exec, execWr, hl, hk]
  · rw [transact_of_decode_ok hd, exec_toInstr]
    simp only [exec, execWr, hl, hk]

/-- Settles O20: an address that names no register raises its error, one that names a register reads it. -/
theorem readAnswersTheAddressedWord : Obligations.ReadAnswersTheAddressedWord := by
  intro s a
  refine ⟨fun h4 => ?_, fun h4 hu => ?_, fun ha => ?_, fun ha => ?_, fun i ha => ?_, fun i ha => ?_,
    fun i ha hp => ?_⟩
  · exact exec_rd_of_locate_error (locate_of_misaligned s.cfg a h4)
  · exact exec_rd_of_locate_error (locate_of_unmapped s.cfg a h4 hu)
  · exact exec_rd_at (g := .ctrl) rfl ha
  · exact exec_rd_at (g := .len) rfl ha
  · exact exec_rd_at (g := .blk i) rfl (ha.trans (Reg.addr_blk_toNat i).symm)
  · exact exec_rd_at (g := .h i) rfl (ha.trans (Reg.addr_h_toNat i).symm)
  · exact exec_rd_at (g := .r i) hp (ha.trans (Reg.addr_r_toNat i).symm)

/-- Settles O21: an address that names no register raises its error, `CTRL` takes the word as a command, and any other
register takes the word. -/
theorem writeSetsTheAddressedWord : Obligations.WriteSetsTheAddressedWord := by
  intro s a w
  refine ⟨fun h4 => ?_, fun h4 hu => ?_, fun ha hw => ?_, fun ha i hi => ?_, fun ha => ?_, fun i ha => ?_,
    fun i ha => ?_, fun i ha hp => ?_⟩
  · exact exec_wr_of_locate_error (locate_of_misaligned s.cfg a h4) w
  · exact exec_wr_of_locate_error (locate_of_unmapped s.cfg a h4 hu) w
  · obtain rfl : a = 0x00#8 := BitVec.eq_of_toNat_eq ha
    rw [exec_wr_ctrl, transact_of_decode_error (decode_ctrlWrite_of_illegalCommandWord hw)]
    rfl
  · obtain rfl : a = 0x00#8 := BitVec.eq_of_toNat_eq ha
    rw [exec_wr_ctrl]
    exact transact_of_decode_ok hi
  · exact exec_wr_at (g := .len) rfl (by decide) ha
  · exact exec_wr_at (g := .blk i) rfl (by simp) (ha.trans (Reg.addr_blk_toNat i).symm)
  · exact exec_wr_at (g := .h i) rfl (by simp) (ha.trans (Reg.addr_h_toNat i).symm)
  · exact exec_wr_at (g := .r i) hp (by simp) (ha.trans (Reg.addr_r_toNat i).symm)

/-! ### The bytes of a written block word -/

theorem blkByte_set_other {blk : Vector Word 16} {i : Fin 16} {k : Fin 64} (w : Word) (hk : k.val / 4 ≠ i.val) :
    blkByte (blk.set i.val w) k = blkByte blk k := by
  rw [blkByte_eq, blkByte_eq, Vector.getElem_set_ne i.isLt _ hk.symm]

/-- Settles O22: bytes `4i` to `4i+3` of the new block are those of its word `i`, which is the written one, and a byte
of another word is as before. -/
theorem blockWordWriteSetsFourBytes : Obligations.BlockWordWriteSetsFourBytes := by
  intro s i w
  have hword : (s.blk.set i.val w)[i.val] = w := Vector.getElem_set_self i.isLt
  obtain ⟨-, hb0, hb1, hb2, hb3⟩ := blockBytesPackBigEndian (s.blk.set i.val w) i
  rw [hword] at hb0 hb1 hb2 hb3
  exact ⟨_, exec_wr (g := .blk i) rfl (by simp), hb0, hb1, hb2, hb3, fun k hk => blkByte_set_other w hk, hword,
    fun j hj => Vector.getElem_set_ne i.isLt j.isLt (Fin.val_ne_of_ne hj.symm), rfl, rfl, rfl, rfl, rfl, rfl⟩

/-! ### Writing twice -/

theorem State.writeReg_respond (s : State) (g : Reg) (d w : Word) :
    (s.respond d).writeReg g w = (s.writeReg g w).respond d := by cases g <;> rfl

theorem State.writeReg_writeReg (s : State) (g : Reg) (w w' : Word) :
    (s.writeReg g w).writeReg g w' = s.writeReg g w' := by
  cases g <;> simp [State.writeReg]

/-- Writing a register twice leaves the state of the second write, with the response of the first before its own. -/
theorem exec_wr_after_wr {s : State} {g : Reg} (w w' : Word) (hx : g.exists s.cfg = true) (hc : g ≠ .ctrl) :
    exec (.wr g.addr w') ((s.writeReg g w).respond 0x00000000#32) =
      .next (((s.writeReg g w').respond 0x00000000#32).respond 0x00000000#32) := by
  rw [exec_wr (by simpa using hx) hc, State.writeReg_respond, State.writeReg_writeReg]

/-- Settles O24: the state after both writes is that of the second one with one more response, and there the register
reads the second word. -/
theorem readAfterWriteReturnsTheWord : Obligations.ReadAfterWriteReturnsTheWord := by
  refine ⟨fun s g w w' hc hg => ?_, fun s w => ⟨?_, ?_, ?_⟩, fun s a w w' => ?_⟩
  · have hx : g.exists s.cfg = true := Reg.exists_of hg
    refine ⟨_, _, _, exec_wr hx hc, exec_wr_after_wr w w' hx hc, exec_rd (by simpa using hx), ?_, ?_⟩
    · simp [readReg_writeReg_same s g w' hc]
    · rw [exec_wr hx hc, State.respond, State.writeReg_responses]
      rfl
  · exact exec_wr_of_locate_error (locate_of_unmapped s.cfg 0x08#8 (by decide) (.inl (by decide))) w
  · exact exec_wr_of_locate_error (locate_of_misaligned s.cfg 0x41#8 (by decide)) w
  · exact exec_wr_of_locate_error (locate_of_misaligned s.cfg 0x09#8 (by decide)) w
  · obtain ⟨-, -, hread⟩ := transactionBitsAreItsFields
    exact hread a w w' s

end Sys2Proof.Machine

/-! ## 41_sha256.md: constants (R81, R82), functions (R84), transform (R85, R86), padder (R89), commands (R90 to R94),
the midstate (R95 to R101) -/

/-! ### The primes below 312 -/

namespace Sys2Proof

/-- The `i`-th of the numbers below `N` with a property is the `i`-th of all numbers with it. -/
theorem nth_eq_of_filter_range (p : Nat → Prop) [DecidablePred p] (N : Nat) {i x : Nat}
    (h : ((List.range N).filter p)[i]? = some x) : Nat.nth p i = x := by
  induction N with
  | zero => simp at h
  | succ N ih =>
    rw [List.range_succ, List.filter_append] at h
    by_cases hi : i < ((List.range N).filter p).length
    · rw [List.getElem?_append_left hi] at h
      exact ih h
    · have hcount : Nat.count p N = ((List.range N).filter p).length := by
        rw [Nat.count, List.countP_eq_length_filter]
      rw [List.getElem?_append_right (Nat.le_of_not_lt hi)] at h
      obtain ⟨hN, hlast, hx⟩ : p N ∧ i - ((List.range N).filter p).length = 0 ∧ N = x := by
        by_cases hN : p N
        · rw [List.filter_cons_of_pos (by simpa using hN), List.filter_nil, List.getElem?_singleton] at h
          split_ifs at h with hlast
          exact ⟨hN, hlast, Option.some.inj h⟩
        · rw [List.filter_cons_of_neg (by simpa using hN)] at h
          cases h
      have hi0 : i = Nat.count p N := by omega
      rw [hi0, Nat.nth_count hN, hx]

/-- The first 64 primes. -/
def firstPrimes : List Nat :=
  [2, 3, 5, 7, 11, 13, 17, 19, 23, 29, 31, 37, 41, 43, 47, 53, 59, 61, 67, 71, 73, 79, 83, 89, 97, 101, 103, 107, 109,
    113, 127, 131, 137, 139, 149, 151, 157, 163, 167, 173, 179, 181, 191, 193, 197, 199, 211, 223, 227, 229, 233, 239,
    241, 251, 257, 263, 269, 271, 277, 281, 283, 293, 307, 311]

/-- Trial division by the numbers below 19: it finds a factor of every composite number below `19 ^ 2`. -/
def noProperFactorBelow19 (n : Nat) : Bool :=
  decide (2 ≤ n) && (List.range' 2 17).all fun m => decide (n ≤ m) || n % m != 0

theorem prime_iff_noProperFactorBelow19 {n : Nat} (hn : n < 19 ^ 2) : n.Prime ↔ noProperFactorBelow19 n = true := by
  have hspec : noProperFactorBelow19 n = true ↔ 2 ≤ n ∧ ∀ m, 2 ≤ m → m < 19 → m < n → ¬ m ∣ n := by
    simp [noProperFactorBelow19, Nat.dvd_iff_mod_eq_zero]
    grind
  rw [hspec]
  constructor
  · intro hp
    obtain ⟨h2, hdvd⟩ := Nat.prime_def_lt'.1 hp
    exact ⟨h2, fun m hm _ hlt => hdvd m hm hlt⟩
  · rintro ⟨h2, hdvd⟩
    have hsqrt : n.sqrt < 19 := Nat.sqrt_lt'.2 hn
    exact Nat.prime_def_le_sqrt.2 ⟨h2, fun m hm hle => hdvd m hm (by omega) (hle.trans_lt (Nat.sqrt_lt_self h2))⟩

theorem filter_noProperFactorBelow19_range : (List.range 312).filter noProperFactorBelow19 = firstPrimes := by decide

theorem filter_prime_range : (List.range 312).filter (Nat.Prime ·) = firstPrimes := by
  rw [← filter_noProperFactorBelow19_range]
  refine List.filter_congr fun n hn => ?_
  have hlt : n < 19 ^ 2 := (List.mem_range.1 hn).trans (by decide)
  simp [prime_iff_noProperFactorBelow19 hlt]

theorem nth_prime_eq_of_firstPrimes {i p : Nat} (h : firstPrimes[i]? = some p) : Nat.nth Nat.Prime i = p :=
  nth_eq_of_filter_range Nat.Prime 312 (by rw [filter_prime_range, h])

end Sys2Proof

namespace Sys2Proof.Machine

/-! ### The constants -/

/-- A word behind any integer part, as its 32 fractional bits, is that number modulo `2 ^ 32`. -/
theorem eq_ofNat_integerPart_add (q : Nat) (w : Word) : w = BitVec.ofNat 32 (q * 2 ^ 32 + w.toNat) := by
  apply BitVec.eq_of_toNat_eq
  rw [BitVec.toNat_ofNat, Nat.mul_add_mod_self_right, Nat.mod_eq_of_lt w.isLt]

/-- `IV[i]` behind an integer part below 5 is the square root of the `i`-th prime, scaled by `2 ^ 32` and rounded
down. -/
theorem iv_isSquareRoot : ∀ i : Fin 8, ∃ p, firstPrimes[i.val]? = some p ∧ ∃ q < 5,
    (q * 2 ^ 32 + Sha.iv[i.val].toNat) ^ 2 ≤ p * 2 ^ 64 ∧
    p * 2 ^ 64 < (q * 2 ^ 32 + Sha.iv[i.val].toNat + 1) ^ 2 := by
  decide

/-- `K[t]` behind an integer part below 7 is the cube root of the `t`-th prime, scaled by `2 ^ 32` and rounded down. -/
theorem k_isCubeRoot : ∀ t : Fin 64, ∃ p, firstPrimes[t.val]? = some p ∧ ∃ q < 7,
    (q * 2 ^ 32 + (Sha.k t.val).toNat) ^ 3 ≤ p * 2 ^ 96 ∧
    p * 2 ^ 96 < (q * 2 ^ 32 + (Sha.k t.val).toNat + 1) ^ 3 := by
  decide

/-- Settles O29: each constant is the fraction of a scaled root of an entry of `firstPrimes`, and that entry is the
prime of its index. -/
theorem shaConstantsFromPrimeRoots : Obligations.ShaConstantsFromPrimeRoots := by
  constructor
  · intro i
    obtain ⟨p, hp, q, -, hle, hlt⟩ := iv_isSquareRoot i
    rw [nth_prime_eq_of_firstPrimes hp]
    exact ⟨_, hle, hlt, eq_ofNat_integerPart_add q _⟩
  · intro t
    obtain ⟨p, hp, q, -, hle, hlt⟩ := k_isCubeRoot t
    rw [nth_prime_eq_of_firstPrimes hp]
    exact ⟨_, hle, hlt, eq_ofNat_integerPart_add q _⟩

end Sys2Proof.Machine

namespace Sys2Proof.Sha

/-! ### The six functions, bit by bit -/

theorem ch_getLsbD (x y z : Word) {i : Nat} (hi : i < 32) :
    (ch x y z).getLsbD i = if x.getLsbD i = true then y.getLsbD i else z.getLsbD i := by
  rw [ch, BitVec.getLsbD_xor, BitVec.getLsbD_and, BitVec.getLsbD_and, BitVec.getLsbD_not, decide_eq_true hi]
  cases x.getLsbD i <;> simp

theorem maj_getLsbD (x y z : Word) (i : Nat) :
    (maj x y z).getLsbD i =
      ((x.getLsbD i && y.getLsbD i) || (x.getLsbD i && z.getLsbD i) || (y.getLsbD i && z.getLsbD i)) := by
  rw [maj, BitVec.getLsbD_xor, BitVec.getLsbD_xor, BitVec.getLsbD_and, BitVec.getLsbD_and, BitVec.getLsbD_and]
  cases x.getLsbD i <;> cases y.getLsbD i <;> simp

theorem ushiftRight_getLsbD (x : Word) (n : Nat) (i : Nat) :
    (x >>> n).getLsbD i = if i < 32 - n then x.getLsbD (i + n) else false := by
  rw [BitVec.getLsbD_ushiftRight, Nat.add_comm n i]
  split_ifs with h
  · rfl
  · exact BitVec.getLsbD_of_ge x _ (by omega)

/-- The exclusive or of three rotations, as in `BSIG0` and `BSIG1`. -/
theorem xor_rotr_rotr_rotr_getLsbD (x : Word) {a b c i : Nat} (ha : a ≤ 32) (hb : b ≤ 32) (hc : c ≤ 32) (hi : i < 32) :
    (rotr x a ^^^ rotr x b ^^^ rotr x c).getLsbD i =
      ((x.getLsbD ((i + a) % 32) ^^ x.getLsbD ((i + b) % 32)) ^^ x.getLsbD ((i + c) % 32)) := by
  rw [BitVec.getLsbD_xor, BitVec.getLsbD_xor, rotr_getLsbD_mod x ha hi, rotr_getLsbD_mod x hb hi,
    rotr_getLsbD_mod x hc hi]

/-- The exclusive or of two rotations and a shift, as in `SSIG0` and `SSIG1`. -/
theorem xor_rotr_rotr_ushiftRight_getLsbD (x : Word) {a b i : Nat} (c : Nat) (ha : a ≤ 32) (hb : b ≤ 32) (hi : i < 32) :
    (rotr x a ^^^ rotr x b ^^^ x >>> c).getLsbD i =
      ((x.getLsbD ((i + a) % 32) ^^ x.getLsbD ((i + b) % 32)) ^^
        (if i < 32 - c then x.getLsbD (i + c) else false)) := by
  rw [BitVec.getLsbD_xor, BitVec.getLsbD_xor, rotr_getLsbD_mod x ha hi, rotr_getLsbD_mod x hb hi, ushiftRight_getLsbD]

/-! ### Their corner cases -/

theorem ch_allOnes (y z : Word) : ch 0xffffffff#32 y z = y := by
  apply BitVec.eq_of_getLsbD_eq
  intro i hi
  have hbit : (0xffffffff#32).getLsbD i = true := by
    rw [show 0xffffffff#32 = BitVec.allOnes 32 from rfl, BitVec.getLsbD_allOnes, decide_eq_true hi]
  rw [ch_getLsbD _ _ _ hi, if_pos hbit]

theorem ch_zero (y z : Word) : ch 0x00000000#32 y z = z := by
  apply BitVec.eq_of_getLsbD_eq
  intro i hi
  rw [ch_getLsbD _ _ _ hi, if_neg (by simp)]

theorem maj_self (x z : Word) : maj x x z = x := by
  apply BitVec.eq_of_getLsbD_eq
  intro i _
  rw [maj_getLsbD]
  cases x.getLsbD i <;> simp

end Sys2Proof.Sha

namespace Sys2Proof.Machine

/-- Settles O28: the bits of each function from those of its rotations and shifts. -/
theorem shaFunctionsBitByBit : Obligations.ShaFunctionsBitByBit := by
  refine ⟨fun x y z i hi => ⟨Sha.ch_getLsbD x y z hi, Sha.maj_getLsbD x y z i, ?_, ?_, ?_, ?_⟩,
    fun x y z => ⟨Sha.ch_allOnes y z, Sha.ch_zero y z, Sha.maj_self x z⟩, by decide⟩
  · exact Sha.xor_rotr_rotr_rotr_getLsbD x (by decide) (by decide) (by decide) hi
  · exact Sha.xor_rotr_rotr_rotr_getLsbD x (by decide) (by decide) (by decide) hi
  · exact Sha.xor_rotr_rotr_ushiftRight_getLsbD x 3 (by decide) (by decide) hi
  · exact Sha.xor_rotr_rotr_ushiftRight_getLsbD x 10 (by decide) (by decide) hi

/-! ### `SHA_INIT` and `SHA_BLOCK` -/

/-- Settles O30: the result of the command, whose `iv` is the eight words. -/
theorem shaInitLoadsIv : Obligations.ShaInitLoadsIv := fun s => exec_command (k := .shaInit) (s := s) rfl

/-- Settles O31: the schedule is that of the block, the working variables are those after each round from `H`. -/
theorem shaBlockIsTheTransform : Obligations.ShaBlockIsTheTransform := by
  intro s
  exact ⟨Sha.scheduleWord s.blk, Sha.workAfter s.h (Sha.schedule s.blk),
    fun t => Sha.scheduleWord_low s.blk t.val t.isLt, Sha.scheduleWord_high s.blk, rfl,
    fun t _ => ⟨_, _, rfl, rfl, rfl⟩, exec_command (k := .shaBlock) rfl⟩

end Sys2Proof.Machine

namespace Sys2Proof.Sha

/-! ### The padder -/

theorem padByte_lengthField {len : Word} {k : Fin 64} (b : Vector Byte 64) (hlen : len.toNat ≤ 55) (hk : 60 ≤ k.val) :
    padByte len b k = beByte (8#32 * len) (k.val - 60) :=
  if_pos ⟨hlen, hk⟩

theorem padByte_message {len : Word} {k : Fin 64} (b : Vector Byte 64) (h : 55 < len.toNat ∨ k.val < 60) :
    padByte len b k = if k.val < len.toNat then b[k.val] else if k.val = len.toNat then 0x80#8 else 0x00#8 :=
  if_neg (by omega)

theorem padByte_at_length {len : Word} {k : Fin 64} (b : Vector Byte 64) (hk : k.val = len.toNat) :
    padByte len b k = 0x80#8 := by
  rw [padByte_message b (by omega), if_neg hk.not_lt, if_pos hk]

theorem padByte_above_length {len : Word} {k : Fin 64} (b : Vector Byte 64) (hk : len.toNat < k.val)
    (h : 55 < len.toNat ∨ k.val < 60) : padByte len b k = 0x00#8 := by
  rw [padByte_message b h, if_neg hk.not_gt, if_neg hk.ne']

theorem eight_mul_len (len : Word) : 8#32 * len = BitVec.ofNat 32 (8 * len.toNat) := by
  apply BitVec.eq_of_toNat_eq
  simp [BitVec.toNat_mul]

/-- The last four bytes of a short message's block are the big-endian bit length. -/
theorem padFirstBlock_lengthField {len : Word} (b : Vector Byte 64) (hlen : len.toNat ≤ 55) :
    be32 (padFirstBlock len b)[60] (padFirstBlock len b)[61] (padFirstBlock len b)[62] (padFirstBlock len b)[63] =
      BitVec.ofNat 32 (8 * len.toNat) := by
  have hbyte (j : Nat) (hj : j < 4) : (padFirstBlock len b)[60 + j] = beByte (8#32 * len) j := by
    rw [padFirstBlock_getElem, padByte_lengthField b hlen (Nat.le_add_right 60 j), Nat.add_sub_cancel_left]
  rw [hbyte 0 (by decide), hbyte 1 (by decide), hbyte 2 (by decide), hbyte 3 (by decide), be32_beByte, eight_mul_len]

/-- A midstate depends on the length and on the block bytes below it alone. -/
theorem midstate_congr (len : Word) {blk blk' : Vector Word 16}
    (h : ∀ k : Fin 64, k.val < len.toNat → blkByte blk' k = blkByte blk k) : midstate len blk' = midstate len blk := by
  rw [midstate, midstate, padFirstBlock_congr len (blkBytes blk) (blkBytes blk')]
  intro k hk
  rw [blkBytes_getElem, blkBytes_getElem]
  exact h k hk

end Sys2Proof.Sha

namespace Sys2Proof.Machine

/-- Settles O35: each byte is at or above the length, or is one of the length field's. -/
theorem paddingBoundaryAt55And56 : Obligations.PaddingBoundaryAt55And56 := by
  intro b
  simp only [padFirstBlock_getElem]
  refine ⟨⟨Sha.padByte_at_length b rfl,
      fun k hk hk' => Sha.padByte_above_length b hk (.inr (Nat.lt_succ_of_le hk')), ?_, ?_, ?_, ?_⟩,
    Sha.padByte_at_length b rfl, fun k hk => Sha.padByte_above_length b hk (.inl (by decide))⟩
  all_goals
    rw [Sha.padByte_lengthField b (by decide) (by decide)]
    decide

/-! ### `MIDSTATE` -/

theorem exec_midstate (s : State) :
    exec .midstate s = .next ({ s with h := Sha.midstate s.len s.blk }.respond 0x00000000#32) :=
  exec_command (k := .midstate) rfl

/-- Settles O32: the 64 bytes are the padder's. -/
theorem midstateTransformsThePaddedBlock : Obligations.MidstateTransformsThePaddedBlock := by
  intro s
  refine ⟨Sha.padFirstBlock s.len (blkBytes s.blk), fun k hk => ?_, Sha.padFirstBlock_lengthField _, exec_midstate s⟩
  rw [padFirstBlock_getElem, Sha.padByte_message _ hk.symm, blkBytes_getElem]

/-- Settles O33: the midstates of the two buffers are equal. -/
theorem midstateIsStateless : Obligations.MidstateIsStateless := by
  intro s s' hlen hbytes
  refine ⟨_, _, exec_midstate s, exec_midstate s', ?_⟩
  simp only [State.respond_h]
  rw [hlen, Sha.midstate_congr s.len hbytes]

/-- Settles O34: both sides are `midstate_long`'s transform. -/
theorem midstateOfLongInputIsInitThenBlock : Obligations.MidstateOfLongInputIsInitThenBlock := by
  intro s hlen
  have hlong : Sha.midstate s.len s.blk = Sha.compress Sha.iv s.blk := Sha.midstate_long s.len s.blk hlen
  exact ⟨_, _, _, exec_midstate s, exec_command (k := .shaInit) rfl, exec_command (k := .shaBlock) rfl, hlong, hlong⟩

end Sys2Proof.Machine

namespace Sys2Proof.Sha

/-! ### The bytes of a midstate -/

/-- In a concatenation of lists of length `n`, entry `n * i + j` is entry `j` of the `i`-th list. -/
theorem getElem?_flatMap_of_length {α β : Type} {f : α → List β} {n j : Nat} (hf : ∀ a, (f a).length = n) (hj : j < n)
    (l : List α) (i : Nat) : (l.flatMap f)[n * i + j]? = l[i]?.bind fun a => (f a)[j]? := by
  induction l generalizing i with
  | nil => simp
  | cons a l ih =>
    rw [List.flatMap_cons]
    cases i with
    | zero =>
      rw [Nat.mul_zero, Nat.zero_add, List.getElem?_append_left (by rwa [hf a])]
      rfl
    | succ i =>
      have hrest : n * (i + 1) + j - n = n * i + j := by rw [Nat.mul_succ]; omega
      rw [List.getElem?_append_right (by rw [hf a, Nat.mul_succ]; omega), hf a, hrest, ih]
      rfl

theorem wordBytes_length (o : WordOrder) (w : Word) : (wordBytes o w).length = 4 := by cases o <;> rfl

theorem midstateBytes_length (o : WordOrder) (h : Vector Word 8) : (midstateBytes o h).length = 32 := by
  simp [midstateBytes, List.length_flatMap, wordBytes_length]

/-- Byte `4i+j` of a midstate is byte `j` of word `i`. -/
theorem midstateBytes_getElem? (o : WordOrder) (h : Vector Word 8) (i : Fin 8) (j : Fin 4) :
    (midstateBytes o h)[4 * i.val + j.val]? = (wordBytes o h[i.val])[j.val]? := by
  rw [midstateBytes, getElem?_flatMap_of_length (wordBytes_length o) j.isLt, Vector.getElem?_toList,
    Vector.getElem?_eq_getElem i.isLt, Option.bind_some]

theorem beBytes_getElem? (w : Word) (j : Fin 4) : (beBytes w)[j.val]? = some (beByte w j.val) := by
  fin_cases j <;> rfl

theorem leBytes_getElem? (w : Word) (j : Fin 4) : (leBytes w)[j.val]? = some (leByte w j.val) := by
  fin_cases j <;> rfl

end Sys2Proof.Sha

namespace Sys2Proof.Seq

/-! ### The document's working buffer -/

/-- The padder's bytes of a buffer that holds the message's first 64 bytes are those of the working buffer. -/
theorem padByte_eq_workingBuffer {m : List Byte} {len : Word} {b : Vector Byte 64} (hlen : len.toNat = m.length)
    (hb : ∀ (k : Fin 64) (hk : k.val < m.length), b[k.val] = m[k.val]) (k : Fin 64) :
    Sha.padByte len b k = (workingBuffer m).getD k.val 0x00#8 := by
  by_cases hfield : m.length ≤ 55 ∧ 60 ≤ k.val
  · obtain ⟨hshort, hk⟩ := hfield
    obtain ⟨j, hj⟩ := Nat.exists_eq_add_of_le hk
    rw [Sha.padByte_lengthField b (hlen ▸ hshort) hk, hj, Nat.add_sub_cancel_left,
      workingBuffer_getD_length m j (by omega) hshort, Sha.eight_mul_len, hlen]
  · have hmessage : 55 < m.length ∨ k.val < 60 := by omega
    rw [Sha.padByte_message b (hlen ▸ hmessage), workingBuffer_getD m k.val k.isLt hmessage, hlen]
    by_cases hk : k.val < m.length
    · rw [if_pos hk, dif_pos hk, hb k hk]
    · rw [if_neg hk, dif_neg hk]

/-- So the padded first block is the first block of the working buffer. -/
theorem beWords_padFirstBlock {m : List Byte} {len : Word} {b : Vector Byte 64} (hlen : len.toNat = m.length)
    (hb : ∀ (k : Fin 64) (hk : k.val < m.length), b[k.val] = m[k.val]) :
    beWords (Sha.padFirstBlock len b) = blockAt (workingBuffer m) 0 := by
  apply Vector.ext
  intro i hi
  rw [beWords_getElem]
  simp only [padFirstBlock_getElem, padByte_eq_workingBuffer hlen hb]
  simp [blockAt, beWordAt]

/-- Below 2^29 bytes the bit length has no high word, and the digest's padding is the working buffer. -/
theorem pad256_eq_workingBuffer {m : List Byte} (h : m.length < 2 ^ 29) : pad256 m = workingBuffer m := by
  have hhigh : 8 * m.length / 2 ^ 32 = 0 := by omega
  have hzeros : 64 * ((m.length + 9 + 63) / 64) - m.length - 5 = padZeros m.length + 4 := by
    rw [padZeros]
    omega
  have hhighBytes : beBytes (BitVec.ofNat 32 0) = List.replicate 4 0x00#8 := by decide
  rw [pad256, workingBuffer, be64, hhigh, hzeros, hhighBytes, List.replicate_add]
  simp only [List.append_assoc]

/-- A message of at most 55 bytes pads to one block. -/
theorem blocksOf_pad256_short {m : List Byte} (h : m.length ≤ 55) :
    blocksOf (pad256 m) = [blockAt (workingBuffer m) 0] := by
  have hone : (workingBuffer m).length / 64 = 1 := by
    rw [← pad256_eq_workingBuffer (by omega), pad256_length]
    omega
  rw [pad256_eq_workingBuffer (by omega), blocksOf, hone]
  rfl

/-- From 64 bytes on the first block of the working buffer is the first 64 bytes of the message. -/
theorem workingBuffer_getD_long {m : List Byte} {k : Nat} (hm : 64 ≤ m.length) (hk : k < 64) :
    (workingBuffer m).getD k 0x00#8 = (m.take 64).getD k 0x00#8 := by
  rw [workingBuffer_getD m k hk (.inl (by omega)), dif_pos (by omega), List.getD_eq_getElem?_getD,
    List.getElem?_take_of_lt hk, List.getElem?_eq_getElem (by omega), Option.getD_some]

end Sys2Proof.Seq

namespace Sys2Proof.Machine

/-- Settles O36: a midstate's byte is one of a word's four, in either order. -/
theorem midstateBytesOrder : Obligations.MidstateBytesOrder := by
  intro h i j
  refine ⟨Sha.midstateBytes_length .be h, Sha.midstateBytes_length .le h, ?_, ?_⟩
  · exact (Sha.midstateBytes_getElem? .be h i j).trans (Sha.beBytes_getElem? _ j)
  · exact (Sha.midstateBytes_getElem? .le h i j).trans (Sha.leBytes_getElem? _ j)

/-- Settles O37: the two sides transform the same block. -/
theorem midstateAgreesWithComputeMidstate : Obligations.MidstateAgreesWithComputeMidstate := by
  intro s m hm hlen hbytes
  have hlenNat : s.len.toNat = m.length := by rw [hlen, BitVec.toNat_ofNat, Nat.mod_eq_of_lt hm]
  have hblock : beWords (Sha.padFirstBlock s.len (blkBytes s.blk)) = Seq.blockAt (Seq.workingBuffer m) 0 := by
    apply Seq.beWords_padFirstBlock hlenNat
    intro k hk
    rw [blkBytes_getElem]
    exact hbytes k hk
  refine ⟨_, exec_midstate s, fun o => ?_⟩
  rw [State.respond_h, Sha.midstate, hblock, Seq.computeMidstate]

/-- Settles O38: the padded message is one block, the working buffer's first. -/
theorem shortMidstateIsTheDigest : Obligations.ShortMidstateIsTheDigest := by
  intro m hm
  rw [Seq.sha256, Seq.blocksOf_pad256_short hm]
  rfl

/-- Settles O39: the first blocks of the two working buffers agree byte by byte. -/
theorem onlyTheFirstBlockParticipates : Obligations.OnlyTheFirstBlockParticipates := by
  intro o m m' hm hm' htake
  have hblock : Seq.blockAt (Seq.workingBuffer m) 0 = Seq.blockAt (Seq.workingBuffer m') 0 := by
    apply Seq.blockAt_zero_congr
    intro k hk
    rw [Seq.workingBuffer_getD_long hm hk, Seq.workingBuffer_getD_long hm' hk, htake]
  rw [Seq.computeMidstate, Seq.computeMidstate, hblock]

end Sys2Proof.Machine

/-! ## 42_ripemd160.md: the unit (R110), constants and tables (R112 to R114), functions (R115), message words (R116),
the compression (R117), commands (R118, R119), a core without the unit (R120) -/

namespace Sys2Proof.Rmd

/-! ### The tables -/

/-- Looking up the positions of a table one after the other gives the table. -/
theorem map_getD_range {α : Type} (l : List α) (d : α) : (List.range l.length).map (l.getD · d) = l := by
  apply List.ext_getElem
  · simp
  · intro i _ hi
    simp [hi]

/-- Each row of the word selections is a permutation of 0..15 (R113). -/
theorem wordSelection_rows_perm : ∀ g : Fin 5,
    ((List.range 16).map fun i => rl (16 * g.val + i)).Perm (List.finRange 16) ∧
    ((List.range 16).map fun i => rr (16 * g.val + i)).Perm (List.finRange 16) := by
  decide

theorem rotationAmount_bounds : ∀ j : Fin 80, 5 ≤ sl j.val ∧ sl j.val ≤ 15 ∧ 5 ≤ sr j.val ∧ sr j.val ≤ 15 := by
  decide

/-- The non-zero constants are the square and the cube roots of the first four primes, scaled by `2 ^ 30` and rounded
down. -/
theorem constants_areRoots : ∀ i : Fin 4,
    (kl (i.val + 1)).toNat ^ 2 ≤ [2, 3, 5, 7][i.val] * 2 ^ 60 ∧
    [2, 3, 5, 7][i.val] * 2 ^ 60 < ((kl (i.val + 1)).toNat + 1) ^ 2 ∧
    (kr i.val).toNat ^ 3 ≤ [2, 3, 5, 7][i.val] * 2 ^ 90 ∧
    [2, 3, 5, 7][i.val] * 2 ^ 90 < ((kr i.val).toNat + 1) ^ 3 := by
  decide

end Sys2Proof.Rmd

namespace Sys2Proof.Machine

/-- Settles O41: the entries are those of the tables, which are the rules' rows. -/
theorem rmdTablesShape : Obligations.RmdTablesShape := by
  have hselection (l : List (Fin 16)) : (List.range l.length).map (fun j => (l.getD j 0).val) = l.map Fin.val :=
    List.map_map.symm.trans (congrArg (List.map Fin.val) (Rmd.map_getD_range l 0))
  exact ⟨⟨Rmd.map_getD_range Rmd.klTable _, Rmd.map_getD_range Rmd.krTable _⟩, hselection Rmd.rlTable,
    hselection Rmd.rrTable, Rmd.map_getD_range Rmd.slTable _, Rmd.map_getD_range Rmd.srTable _,
    Rmd.wordSelection_rows_perm, Rmd.rotationAmount_bounds, Rmd.constants_areRoots⟩

end Sys2Proof.Machine

namespace Sys2Proof.Rmd

/-! ### The five functions, bit by bit -/

theorem f_zero_getLsbD (x y z : Word) (i : Nat) :
    (f 0 x y z).getLsbD i = ((x.getLsbD i ^^ y.getLsbD i) ^^ z.getLsbD i) := by
  rw [f, BitVec.getLsbD_xor, BitVec.getLsbD_xor]

theorem f_one_getLsbD (x y z : Word) {i : Nat} (hi : i < 32) :
    (f 1 x y z).getLsbD i = if x.getLsbD i = true then y.getLsbD i else z.getLsbD i := by
  rw [f, BitVec.getLsbD_or, BitVec.getLsbD_and, BitVec.getLsbD_and, BitVec.getLsbD_not, decide_eq_true hi]
  cases x.getLsbD i <;> simp

theorem f_two_getLsbD (x y z : Word) {i : Nat} (hi : i < 32) :
    (f 2 x y z).getLsbD i = ((x.getLsbD i || !y.getLsbD i) ^^ z.getLsbD i) := by
  rw [f, BitVec.getLsbD_xor, BitVec.getLsbD_or, BitVec.getLsbD_not, decide_eq_true hi, Bool.true_and]

theorem f_three_getLsbD (x y z : Word) {i : Nat} (hi : i < 32) :
    (f 3 x y z).getLsbD i = if z.getLsbD i = true then x.getLsbD i else y.getLsbD i := by
  rw [f, BitVec.getLsbD_or, BitVec.getLsbD_and, BitVec.getLsbD_and, BitVec.getLsbD_not, decide_eq_true hi]
  cases z.getLsbD i <;> simp

theorem f_four_getLsbD (x y z : Word) {i : Nat} (hi : i < 32) :
    (f 4 x y z).getLsbD i = (x.getLsbD i ^^ (y.getLsbD i || !z.getLsbD i)) := by
  rw [show f 4 x y z = x ^^^ (y ||| ~~~z) from rfl, BitVec.getLsbD_xor, BitVec.getLsbD_or, BitVec.getLsbD_not,
    decide_eq_true hi, Bool.true_and]

end Sys2Proof.Rmd

namespace Sys2Proof.Machine

/-- Settles O42: one lemma for each function. -/
theorem rmdFunctionsBitByBit : Obligations.RmdFunctionsBitByBit := by
  intro x y z i hi
  exact ⟨Rmd.f_zero_getLsbD x y z i, Rmd.f_one_getLsbD x y z hi, Rmd.f_two_getLsbD x y z hi,
    Rmd.f_three_getLsbD x y z hi, Rmd.f_four_getLsbD x y z hi⟩

end Sys2Proof.Machine

namespace Sys2Proof.Rmd

/-! ### The message words -/

theorem messageWords_getElem (blk : Vector Word 16) (i : Fin 16) : (messageWords blk)[i.val] = bswap blk[i.val] := by
  simp [messageWords]

end Sys2Proof.Rmd

namespace Sys2Proof.Machine

/-- Settles O40: byte `4i+j` of the block is byte `j` of word `i`, most significant first, and `bswap` and `le32` put
these four bytes in the same order. -/
theorem rmdMessageWordsAreLittleEndian : Obligations.RmdMessageWordsAreLittleEndian := by
  intro blk i
  obtain ⟨-, h0, h1, h2, h3⟩ := blockBytesPackBigEndian blk i
  refine ⟨?_, Rmd.messageWords_getElem blk i⟩
  rw [Rmd.messageWords_getElem, h0, h1, h2, h3, bswap, le32]

/-! ### The two commands -/

theorem exec_command_absent {k : Command} {s : State} (hx : ¬ k.exists s.cfg = true) :
    exec k.toInstr s = .next (s.raise .errCmd) := by
  rw [exec_toInstr, execCommand_eq, if_neg hx]

/-- Settles O43: the command's result with the unit, its exception without. -/
theorem rmdInitLoadsRiv : Obligations.RmdInitLoadsRiv := by
  intro s
  exact ⟨fun hp => exec_command (k := .rmdInit) hp,
    fun ha => exec_command_absent (k := .rmdInit) (ne_true_of_eq_false ha)⟩

/-- Settles O44: the two lines are `leftAfter` and `rightAfter` over the message words of the block. -/
theorem rmdBlockIsTheCompression : Obligations.RmdBlockIsTheCompression := by
  intro s
  refine ⟨fun hp => ?_, fun ha => exec_command_absent (k := .rmdBlock) (ne_true_of_eq_false ha)⟩
  exact ⟨Rmd.messageWords s.blk, Rmd.leftAfter s.r (Rmd.messageWords s.blk),
    Rmd.rightAfter s.r (Rmd.messageWords s.blk), Rmd.messageWords_getElem s.blk, rfl, rfl,
    fun j _ => ⟨_, _, rfl, rfl, rfl, rfl⟩, exec_command (k := .rmdBlock) hp⟩

/-! ### The two units -/

/-- The state with other words in `H` and `LEN`, the elements of the SHA-256 unit alone. -/
def State.withSha (s : State) (h : Vector Word 8) (n : Word) : State := { s with h := h, len := n }

/-- The state with other words in `R`, the element of the RIPEMD-160 unit alone. -/
def State.withR (s : State) (r : Vector Word 5) : State := { s with r := r }

/-- A command commutes with a change of state that its result commutes with, if the change leaves the build and does
not look at the responses. -/
theorem execCommand_map {f : State → State} {k : Command} {s t : State} (hcfg : (f s).cfg = s.cfg)
    (hrespond : ∀ u d, (f u).respond d = f (u.respond d)) (hraise : ∀ u e, (f u).raise e = f (u.raise e))
    (hresult : commandResult k (f s) = f (commandResult k s)) (h : execCommand k s = .next t) :
    execCommand k (f s) = .next (f t) := by
  rw [execCommand_eq] at h ⊢
  rw [hcfg, hresult, hrespond, hraise]
  split at h <;> cases h
  case isTrue hx => exact if_pos hx
  case isFalse hx => exact if_neg hx

theorem execCommand_withSha {k : Command} {s t : State} (hk : k = .rmdInit ∨ k = .rmdBlock)
    (ht : execCommand k s = .next t) (h : Vector Word 8) (n : Word) :
    execCommand k (s.withSha h n) = .next (t.withSha h n) :=
  execCommand_map (f := (State.withSha · h n)) rfl (fun _ _ => rfl) (fun _ _ => rfl)
    (by rcases hk with rfl | rfl <;> rfl) ht

theorem execCommand_withR {k : Command} {s t : State} (hk : k = .shaInit ∨ k = .shaBlock ∨ k = .midstate)
    (ht : execCommand k s = .next t) (r : Vector Word 5) : execCommand k (s.withR r) = .next (t.withR r) :=
  execCommand_map (f := (State.withR · r)) rfl (fun _ _ => rfl) (fun _ _ => rfl)
    (by rcases hk with rfl | rfl | rfl <;> rfl) ht

/-- Settles O45: a command's next state carries whatever words the other unit's elements are given, and with the words
they hold already that says the command leaves them. -/
theorem unitsShareOnlyTheBlock : Obligations.UnitsShareOnlyTheBlock := by
  refine ⟨fun s t h n i hi ht => ?_, fun s t r i hi ht => ?_⟩
  · obtain ⟨k, hk, rfl⟩ : ∃ k : Command, (k = .rmdInit ∨ k = .rmdBlock) ∧ i = k.toInstr := by
      rcases hi with rfl | rfl
      exacts [⟨.rmdInit, .inl rfl, rfl⟩, ⟨.rmdBlock, .inr rfl, rfl⟩]
    rw [exec_toInstr] at ht ⊢
    have hsame : t = t.withSha s.h s.len :=
      Host.Outcome.next.inj (ht.symm.trans (execCommand_withSha hk ht s.h s.len))
    have hh : t.h = (t.withSha s.h s.len).h := congrArg State.h hsame
    have hlen : t.len = (t.withSha s.h s.len).len := congrArg State.len hsame
    exact ⟨hh, hlen, execCommand_withSha hk ht h n⟩
  · obtain ⟨k, hk, rfl⟩ : ∃ k : Command, (k = .shaInit ∨ k = .shaBlock ∨ k = .midstate) ∧ i = k.toInstr := by
      rcases hi with rfl | rfl | rfl
      exacts [⟨.shaInit, .inl rfl, rfl⟩, ⟨.shaBlock, .inr (.inl rfl), rfl⟩, ⟨.midstate, .inr (.inr rfl), rfl⟩]
    rw [exec_toInstr] at ht ⊢
    have hsame : t = t.withR s.r := Host.Outcome.next.inj (ht.symm.trans (execCommand_withR hk ht s.r))
    have hr : t.r = (t.withR s.r).r := congrArg State.r hsame
    exact ⟨hr, execCommand_withR hk ht r⟩

end Sys2Proof.Machine

/-! ### A core without the unit beside one that has it -/

namespace Sys2Proof

open Machine

/-- The core built with the RIPEMD-160 unit. -/
def Config.withRmd (c : Config) : Config := { c with rmdPresent := true }

@[simp] theorem Config.withRmd_rmdPresent (c : Config) : c.withRmd.rmdPresent = true := rfl

@[simp] theorem Reg.exists_withRmd (c : Config) (g : Reg) : g.exists c.withRmd = true := by cases g <;> rfl

@[simp] theorem Command.exists_withRmd (c : Config) (k : Command) : k.exists c.withRmd = true := by cases k <;> rfl

/-- The unit changes what an address names at the `R` addresses alone. -/
theorem locate_withRmd {c : Config} {a : Addr} (ha : ∀ i : Fin 5, a.toNat ≠ 0xA0 + 4 * i.val) :
    locate c.withRmd a = locate c a := by
  rcases locate_cases c.withRmd a with ⟨h4, h⟩ | ⟨h4, hm, h⟩ | ⟨g, rfl, -, h⟩
  · rw [h, locate_of_misaligned c a h4]
  · have hunmapped : UnmappedAddress c a.toNat := by
      rcases (mapped_eq_none_iff _ a h4).1 hm with hlow | hhigh | ⟨hp, -⟩
      · exact .inl hlow
      · exact .inr (.inl hhigh)
      · cases hp
    rw [h, locate_of_unmapped c a h4 hunmapped]
  · have hx : g.exists c = true := by
      apply Reg.exists_of
      rintro i rfl
      exact absurd (Reg.addr_r_toNat i) (ha i)
    rw [h, locate_addr c g hx]

theorem decodeCommand_word {c : Config} {k : Command} (hx : k.exists c = true) : decodeCommand c k.word = .ok k := by
  cases k with
  | rmdInit => exact if_pos hx
  | rmdBlock => exact if_pos hx
  | _ => rfl

/-- The unit changes what a command word selects for the unit's own two words alone. -/
theorem decodeCommand_withRmd {c : Config} {w : Word} (hw : ¬ (w = 0x00000011#32 ∨ w = 0x00000012#32)) :
    decodeCommand c.withRmd w = decodeCommand c w := by
  have hx {k : Command} (hk : w = k.word) : k.exists c = true := by
    apply Command.exists_of
    rintro (rfl | rfl)
    exacts [absurd (.inl hk) hw, absurd (.inr hk) hw]
  rcases h : decodeCommand c.withRmd w with e | k
  · rcases h' : decodeCommand c w with e' | k'
    · rw [decodeCommand_error h, decodeCommand_error h']
    · obtain rfl := eq_word_of_decodeCommand h'
      rw [decodeCommand_word (Command.exists_withRmd c k')] at h
      cases h
  · obtain rfl := eq_word_of_decodeCommand h
    rw [decodeCommand_word (hx rfl)]

/-- A transaction that is neither at an `R` address nor one of the unit's commands decodes alike on both cores. -/
theorem decode_withRmd {c : Config} {t : Transaction} (ha : ∀ i : Fin 5, t.addr.toNat ≠ 0xA0 + 4 * i.val)
    (hw : ¬ (t.we = true ∧ t.addr = 0x00#8 ∧ (t.wdata = 0x00000011#32 ∨ t.wdata = 0x00000012#32))) :
    decode c.withRmd t = decode c t := by
  by_cases hctrl : t.we = true ∧ t.addr = 0x00#8
  · obtain ⟨hwe, haddr⟩ := hctrl
    rw [decode_ctrl hwe haddr, decode_ctrl hwe haddr, decodeCommand_withRmd fun h => hw ⟨hwe, haddr, h⟩]
  · have hl := locate_withRmd (c := c) ha
    rcases hg : locate c t.addr with e | g <;> rw [hg] at hl
    · rw [decode_of_locate_error hg, decode_of_locate_error hl]
    · cases hwe : t.we with
      | false => rw [decode_read hg hwe, decode_read hl hwe]
      | true =>
        have haddr : t.addr ≠ 0x00#8 := fun h => hctrl ⟨hwe, h⟩
        rw [decode_write hg hwe haddr, decode_write hl hwe haddr]

end Sys2Proof

namespace Sys2Proof.Machine

/-- The same state of a core built with the RIPEMD-160 unit. -/
def State.withRmd (s : State) : State := { s with cfg := s.cfg.withRmd }

@[simp] theorem State.withRmd_cfg (s : State) : s.withRmd.cfg = s.cfg.withRmd := rfl

/-- Two states hold the same `LEN`, `BLK`, `H` and responses. -/
def AgreeOutsideR (u v : State) : Prop := u.len = v.len ∧ u.blk = v.blk ∧ u.h = v.h ∧ u.responses = v.responses

theorem agreeOutsideR_withRmd (s : State) : AgreeOutsideR s s.withRmd := ⟨rfl, rfl, rfl, rfl⟩

theorem AgreeOutsideR.respond {u v : State} (h : AgreeOutsideR u v) (d : Word) :
    AgreeOutsideR (u.respond d) (v.respond d) := by
  obtain ⟨hlen, hblk, hh, hresp⟩ := h
  exact ⟨hlen, hblk, hh, by simp [hresp]⟩

theorem State.readReg_withRmd (s : State) (g : Reg) : s.withRmd.readReg g = s.readReg g := by cases g <;> rfl

theorem agreeOutsideR_writeReg (s : State) (g : Reg) (w : Word) :
    AgreeOutsideR (s.writeReg g w) (s.withRmd.writeReg g w) := by cases g <;> exact ⟨rfl, rfl, rfl, rfl⟩

theorem agreeOutsideR_commandResult (s : State) (k : Command) :
    AgreeOutsideR (commandResult k s) (commandResult k s.withRmd) := by cases k <;> exact ⟨rfl, rfl, rfl, rfl⟩

/-- A transaction that decodes alike with the unit leaves the same elements and responses, `R` apart, in each of the
four cases of `transact_cases`. -/
theorem transact_withRmd {t : Transaction} {s : State} (hdec : decode s.cfg.withRmd t = decode s.cfg t) :
    ∃ u v, transact t s = .next u ∧ transact t s.withRmd = .next v ∧ AgreeOutsideR u v := by
  rcases transact_cases t s with ⟨e, hd, hu⟩ | ⟨g, ha, -, -, hd, hu⟩ | ⟨g, ha, -, hc, -, hd, hu⟩ |
    ⟨k, -, -, -, -, hd, hu⟩
  · exact ⟨_, _, hu, transact_of_decode_error (hdec.trans hd), rfl, rfl, rfl, rfl⟩
  · refine ⟨_, s.withRmd.respond (s.readReg g), hu, ?_, (agreeOutsideR_withRmd s).respond _⟩
    rw [transact_of_decode_ok (s := s.withRmd) (hdec.trans hd), ha, exec_rd (by simp), State.readReg_withRmd]
  · refine ⟨_, _, hu, ?_, (agreeOutsideR_writeReg s g t.wdata).respond _⟩
    rw [transact_of_decode_ok (s := s.withRmd) (hdec.trans hd), ha, exec_wr (by simp) hc]
  · refine ⟨_, _, hu, ?_, (agreeOutsideR_commandResult s k).respond _⟩
    rw [transact_of_decode_ok (s := s.withRmd) (hdec.trans hd), exec_command (by simp)]

/-- On a core without the unit the words of its two commands are illegal. -/
theorem transact_rmdWord_absent {s : State} {t : Transaction} (hp : s.cfg.rmdPresent = false) (hwe : t.we = true)
    (haddr : t.addr = 0x00#8) (hw : t.wdata = 0x00000011#32 ∨ t.wdata = 0x00000012#32) :
    transact t s = .next (s.raise .errCmd) := by
  have hillegal : IllegalCommandWord s.cfg t.wdata := by
    rcases hw with hw | hw <;> rw [hw] <;> exact .inr (.inr ⟨by decide, hp⟩)
  have ht : t = ctrlWrite t.wdata := by rw [ctrlWrite, ← hwe, ← haddr]
  apply transact_of_decode_error
  rw [ht]
  exact decode_ctrlWrite_of_illegalCommandWord hillegal

/-- On a core without the unit an `R` address is unmapped. -/
theorem transact_rAddress_absent {s : State} {t : Transaction} {i : Fin 5} (hp : s.cfg.rmdPresent = false)
    (ha : t.addr.toNat = 0xA0 + 4 * i.val) : transact t s = .next (s.raise .errAddr) := by
  have haddr : t.addr = (Reg.r i).addr := BitVec.eq_of_toNat_eq (ha.trans (Reg.addr_r_toNat i).symm)
  apply transact_of_decode_error
  apply decode_of_locate_error
  rw [haddr]
  exact locate_addr_absent (ne_true_of_eq_false hp)

/-- Settles O46: the unit's words and addresses raise their errors, and any other transaction decodes as on the core with
the unit. -/
theorem absentUnitOnlyRemovesItsOwn : Obligations.AbsentUnitOnlyRemovesItsOwn := by
  intro s t hp
  refine ⟨transact_rmdWord_absent hp, fun i => transact_rAddress_absent hp, fun hw ha => ?_⟩
  obtain ⟨u, v, hu, hv, hlen, hblk, hh, hresp⟩ := transact_withRmd (decode_withRmd (c := s.cfg) ha hw)
  exact ⟨u, v, hu, hv, hlen, hblk, hh, hresp, transact_r_absent hu hp⟩

end Sys2Proof.Machine

/-! ## 43_system.md: NOP (R130) and CLEAR (R131) -/

namespace Sys2Proof.Machine

/-- Settles O47: the result of the command is the state itself. -/
theorem nopOnlyAnswers : Obligations.NopOnlyAnswers := fun _ => exec_command (k := .nop) rfl

/-! ### Zeroing against the reset state, and zeroing twice -/

/-- With the unit, a zeroed core has the elements of the reset state. -/
theorem sameElements_resetOf_zeroAll {s : State} (hp : s.cfg.rmdPresent = true) :
    SameElements (State.resetOf s.cfg) s.zeroAll := by
  refine sameElements_of_readReg fun g => ?_
  rw [State.readReg_zeroAll (Reg.exists_of fun _ _ => hp), State.readReg_resetOf]

/-- The storage of `R` on a core without the unit is the only field where the second zeroing finds no zeros, and there
neither zeroing acts. -/
theorem State.zeroAll_zeroAll (s : State) : s.zeroAll.zeroAll = s.zeroAll := by
  have hr : s.zeroAll.zeroAll.r = s.zeroAll.r := by
    simp only [State.zeroAll_r, State.zeroAll_cfg]
    split <;> rfl
  exact congrArg (fun r => { s.zeroAll with r := r }) hr

/-- An answer and a zeroing act on different fields. -/
theorem State.zeroAll_respond (s : State) (d : Word) : (s.respond d).zeroAll = s.zeroAll.respond d := rfl

theorem sameElements_clear_twice (s : State) (d : Word) :
    SameElements (s.zeroAll.respond d) ((s.zeroAll.respond d).zeroAll.respond d) := by
  rw [State.zeroAll_respond, State.zeroAll_zeroAll]
  exact sameElements_respond _ d

/-- Settles O48: the elements are those of `zeroAll`, where every register that exists reads 0, and zeroing twice is
zeroing once. -/
theorem clearLeavesTheResetElements : Obligations.ClearLeavesTheResetElements := by
  intro s
  have hzero (g : Reg) (hg : g.exists s.cfg = true) : (s.zeroAll.respond 0x00000000#32).readReg g = 0x00000000#32 := by
    rw [State.readReg_respond, State.readReg_zeroAll hg]
  exact ⟨_, exec_clear s, answered_commandResult .clear s, hzero .len rfl, fun i => hzero (.blk i) rfl,
    fun i => hzero (.h i) rfl, fun hp i => hzero (.r i) hp,
    fun hp => (sameElements_resetOf_zeroAll hp).trans (sameElements_respond _ _),
    _, exec_clear _, sameElements_clear_twice s _⟩

end Sys2Proof.Machine

/-! ## 44_host_sequences.md: the paddings (R135, R137), the host sequences (R136, R138 to R141, R143, R144), the address
payload (R142) -/

namespace Sys2Proof.Seq

/-! ### The paddings -/

/-- The big-endian bytes of a word continue the reading of a big-endian number. -/
theorem foldl_beBytes (w : Word) (n : Nat) :
    (beBytes w).foldl (fun n b => 256 * n + b.toNat) n = 2 ^ 32 * n + w.toNat := by
  have hw := w.isLt
  simp only [beBytes, beByte, List.foldl_cons, List.foldl_nil, BitVec.extractLsb'_toNat, Nat.shiftRight_eq_div_pow]
  omega

/-- The little-endian bytes of a word, below the rest of a little-endian number. -/
theorem foldr_leBytes (w : Word) (n : Nat) :
    (leBytes w).foldr (fun b n => 256 * n + b.toNat) n = 2 ^ 32 * n + w.toNat := by
  have hw := w.isLt
  simp only [leBytes, leByte, List.foldr_cons, List.foldr_nil, BitVec.extractLsb'_toNat, Nat.shiftRight_eq_div_pow]
  omega

/-- A number below 2^64 is its two words. -/
theorem two_words_toNat {n : Nat} (h : n < 2 ^ 64) :
    2 ^ 32 * (BitVec.ofNat 32 (n / 2 ^ 32)).toNat + (BitVec.ofNat 32 n).toNat = n := by
  rw [BitVec.toNat_ofNat, BitVec.toNat_ofNat]
  omega

theorem foldl_be64 {n : Nat} (h : n < 2 ^ 64) : (be64 n).foldl (fun n b => 256 * n + b.toNat) 0 = n := by
  rw [be64, List.foldl_append, foldl_beBytes, foldl_beBytes, Nat.mul_zero, Nat.zero_add, two_words_toNat h]

theorem foldr_le64 {n : Nat} (h : n < 2 ^ 64) : (le64 n).foldr (fun b n => 256 * n + b.toNat) 0 = n := by
  rw [le64, List.foldr_append, foldr_leBytes, foldr_leBytes, Nat.mul_zero, Nat.zero_add, two_words_toNat h]

theorem padZeros_fills (n : Nat) : (n + 1 + padZeros n + 8) % 64 = 0 := by
  rw [padZeros]
  omega

theorem padZeros_le {n y : Nat} (h : (n + 1 + y + 8) % 64 = 0) : padZeros n ≤ y := by
  rw [padZeros]
  omega

/-- Settles O53: the zero fill is `padZeros` and the length field `be64`. -/
theorem sha256PaddingRule : Obligations.Sha256PaddingRule := by
  intro m hm
  exact ⟨⟨padZeros m.length, padZeros_fills _, fun _ => padZeros_le, be64 (8 * m.length), rfl, rfl,
    foldl_be64 (by omega)⟩, pad256_length m, pad256_eq_workingBuffer⟩

/-- Settles O54: the zero fill is `padZeros` and the length field `le64`. -/
theorem rmd160PaddingRule : Obligations.Rmd160PaddingRule := by
  intro m hm
  exact ⟨padZeros m.length, le64 (8 * m.length), padZeros_fills _, fun _ => padZeros_le, rfl, rfl,
    foldr_le64 (by omega)⟩

/-! ### The layout of the address payload -/

/-- Settles O60: the payload is one byte, the 20 of `rmd160_length` and four of the 32 of `sha256_length`. -/
theorem addressPayloadLayout : Obligations.AddressPayloadLayout := by
  intro pubkey
  have hhash : (rmd160 (sha256 pubkey)).length = 20 := rmd160_length _
  have htake : (addressPayload pubkey).take 21 = 0x00#8 :: rmd160 (sha256 pubkey) :=
    List.take_left' (by rw [List.length_cons, hhash])
  have hdrop : (addressPayload pubkey).drop 21 =
      (sha256 (sha256 (0x00#8 :: rmd160 (sha256 pubkey)))).take 4 :=
    List.drop_left' (by rw [List.length_cons, hhash])
  refine ⟨?_, rfl, List.take_left' hhash, by rw [htake, hdrop]⟩
  rw [← List.take_append_drop 21 (addressPayload pubkey), htake, hdrop]
  simp [hhash, sha256_length]

/-! ### The bytes of a message in the block's words -/

theorem beByte_beWordAt (q : List Byte) (i : Nat) {j : Nat} (hj : j < 4) :
    beByte (beWordAt q i) j = q.getD (i + j) 0x00#8 := by
  obtain ⟨h0, h1, h2, h3⟩ := beByte_be32 (q.getD i 0x00#8) (q.getD (i + 1) 0x00#8) (q.getD (i + 2) 0x00#8)
    (q.getD (i + 3) 0x00#8)
  interval_cases j
  · exact h0
  · exact h1
  · exact h2
  · exact h3

/-- Byte `k` of the first block is byte `k` of the sequence. -/
theorem blkByte_blockAt_zero (q : List Byte) (k : Fin 64) : blkByte (blockAt q 0) k = q.getD k.val 0x00#8 := by
  have hk : 64 * 0 + 4 * (k.val / 4) + k.val % 4 = k.val := by omega
  simp only [blkByte_eq, blockAt, Vector.getElem_ofFn]
  rw [beByte_beWordAt q _ (Nat.mod_lt _ (by decide)), hk]

/-- From 64 bytes on the first block of the padded message is the message's own. -/
theorem blockAt_pad256_zero {m : List Byte} (hm : 64 ≤ m.length) : blockAt (pad256 m) 0 = blockAt m 0 := by
  apply blockAt_zero_congr
  intro i hi
  rw [pad256, List.append_assoc, List.append_assoc, List.getD_append _ _ _ _ (by omega)]

/-- So the digest continues from the transform of the message's first 64 bytes. -/
theorem sha256_eq_resumed {m : List Byte} (hm : 64 ≤ m.length) :
    sha256 m =
      (shaFold (Sha.compress Sha.iv (blockAt m 0)) (blocksOf (pad256 m)).tail).toList.flatMap beBytes := by
  have hlength : (pad256 m).length = 64 * ((m.length + 8) / 64 + 1) := by
    rw [pad256_length]
    omega
  rw [sha256, blocksOf_cons _ _ hlength, blockAt_pad256_zero hm]
  rfl

/-- `LDBYTES m` writes the words of the message's first block that hold a byte of it. -/
theorem ldBytes_eq (m : List Byte) :
    ldBytes m = (((List.finRange 16).take ((m.length + 3) / 4)).map fun i =>
      (Reg.blk i, (blockAt m 0)[i.val])).map fun p => wrReg p.1 p.2 := by
  rw [ldBytes, List.map_map]
  refine List.map_congr_left fun i _ => ?_
  simp [blockAt, beWordAt]

theorem mem_take_finRange {n : Nat} (c : Nat) (i : Fin n) : i ∈ (List.finRange n).take c ↔ i.val < c := by
  rw [List.mem_take_iff_getElem]
  constructor
  · rintro ⟨j, hj, rfl⟩
    simpa using (lt_min_iff.1 hj).1
  · intro h
    exact ⟨i.val, by simp [h], by simp⟩

end Sys2Proof.Seq

namespace Sys2Proof.Machine

/-! ### Runs without an error (R144) -/

/-- From `s` the host issues `ts` and ends in `t`; every response is `OKAY`, and the build and the queue are as
before. -/
structure OkayRun (ts : List Transaction) (s t : State) : Prop where
  run : Seq.run ts s = some t
  noError : NoError s t
  cfg : t.cfg = s.cfg
  pending : t.pending = s.pending

theorem OkayRun.append {ts us : List Transaction} {s t u : State} (h : OkayRun ts s t) (h' : OkayRun us t u) :
    OkayRun (ts ++ us) s u where
  run := by rw [run_append, h.run, Option.bind_some, h'.run]
  noError := h.noError.trans h'.noError
  cfg := h'.cfg.trans h.cfg
  pending := h'.pending.trans h.pending

/-- What writes answer meets no error. -/
theorem noError_of_replicate {s t : State} {n : Nat}
    (h : t.responses = s.responses ++ List.replicate n ⟨.okay, 0x00000000#32⟩) : NoError s t :=
  ⟨_, h, replicate_okay_resp n⟩

theorem okayRun_cmd {k : Command} {s : State} (hx : k.exists s.cfg = true) :
    OkayRun [Seq.cmd k] s ((commandResult k s).respond 0x00000000#32) where
  run := run_cons (transact_cmd hx)
  noError := noError_of_replicate (n := 1) (by simp)
  cfg := by simp
  pending := by simp

theorem okayRun_setLen (n : Nat) (s : State) : ∃ t : State, OkayRun (Seq.setLen n) s t ∧
    t.len = BitVec.ofNat 32 n ∧ t.blk = s.blk ∧ t.r = s.r :=
  ⟨_, ⟨run_cons (transact_wrReg rfl Reg.noConfusion), noError_of_replicate (n := 1) rfl, rfl, rfl⟩, rfl, rfl, rfl⟩

theorem okayRun_ldH (w : Vector Word 8) (s : State) : ∃ t : State, OkayRun (Seq.ldH w) s t ∧ t.h = w :=
  ⟨_, ⟨run_ldH w s, noError_of_replicate rfl, rfl, rfl⟩, rfl⟩

/-- After `LDBYTES m` the buffer begins with the bytes of `m`, whatever it held. -/
theorem okayRun_ldBytes (m : List Byte) (s : State) : ∃ t : State, OkayRun (Seq.ldBytes m) s t ∧ t.r = s.r ∧
    ∀ (k : Fin 64) (hk : k.val < m.length), blkByte t.blk k = m[k.val] := by
  have hrun := run_writes (((List.finRange 16).take ((m.length + 3) / 4)).map fun i =>
    (Reg.blk i, (Seq.blockAt m 0)[i.val])) s fun p hp => by
      obtain ⟨i, -, rfl⟩ := List.mem_map.1 hp
      exact ⟨Reg.noConfusion, rfl⟩
  rw [← Seq.ldBytes_eq, foldl_blk] at hrun
  refine ⟨_, ⟨hrun, noError_of_replicate rfl, rfl, rfl⟩, rfl, fun k hk => ?_⟩
  have hword : (⟨k.val / 4, by omega⟩ : Fin 16) ∈ (List.finRange 16).take ((m.length + 3) / 4) :=
    (Seq.mem_take_finRange _ _).2 (by simp only; omega)
  have hbyte := Seq.blkByte_blockAt_zero m k
  rw [blkByte_eq] at hbyte ⊢
  simp only [foldl_set, hword, if_true]
  rw [hbyte, List.getD_eq_getElem _ _ hk]

theorem okayRun_rdH (s : State) : ∃ t : State, OkayRun Seq.rdH s t ∧ Seq.lastWords 8 t = s.h.toList ∧
    t.len = s.len ∧ t.r = s.r :=
  ⟨_, ⟨run_rdH s, ⟨_, rfl, okays_resp _⟩, rfl, rfl⟩, lastWords_okays rfl Vector.length_toList, rfl, rfl⟩

theorem okayRun_rdR {s : State} (hp : s.cfg.rmdPresent = true) : ∃ t : State, OkayRun Seq.rdR s t ∧
    Seq.lastWords 5 t = s.r.toList ∧ t.len = s.len ∧ t.h = s.h :=
  ⟨_, ⟨run_rdR s hp, ⟨_, rfl, okays_resp _⟩, rfl, rfl⟩, lastWords_okays rfl Vector.length_toList, rfl, rfl⟩

/-- The blocks of a message, then `RDH`: the words read are the fold of the transform over the blocks. -/
theorem okayRun_shaBlocks_rdH (bs : List (Vector Word 16)) (s : State) : ∃ t : State,
    OkayRun (Seq.blockTransactions .shaBlock bs ++ Seq.rdH) s t ∧
    Seq.lastWords 8 t = (Seq.shaFold s.h bs).toList ∧ t.len = s.len ∧ t.r = s.r := by
  obtain ⟨u, n, hrun, hh, hlen, hr, hcfg, hpending, hresp⟩ := run_shaBlocks bs s
  obtain ⟨t, hread, hwords, hlen', hr'⟩ := okayRun_rdH u
  exact ⟨t, OkayRun.append ⟨hrun, noError_of_replicate hresp, hcfg, hpending⟩ hread, hh ▸ hwords, hlen'.trans hlen,
    hr'.trans hr⟩

/-- The blocks of a message, then `RDR`. -/
theorem okayRun_rmdBlocks_rdR (bs : List (Vector Word 16)) {s : State} (hp : s.cfg.rmdPresent = true) : ∃ t : State,
    OkayRun (Seq.blockTransactions .rmdBlock bs ++ Seq.rdR) s t ∧
    Seq.lastWords 5 t = (Seq.rmdFold s.r bs).toList ∧ t.len = s.len ∧ t.h = s.h := by
  obtain ⟨u, n, hrun, hr, hlen, hh, hcfg, hpending, hresp⟩ := run_rmdBlocks bs s hp
  obtain ⟨t, hread, hwords, hlen', hh'⟩ := okayRun_rdR (s := u) (hcfg ▸ hp)
  exact ⟨t, OkayRun.append ⟨hrun, noError_of_replicate hresp, hcfg, hpending⟩ hread, hr ▸ hwords, hlen'.trans hlen,
    hh'.trans hh⟩

/-! ### The sequences -/

/-- Settles O55: `SHA_INIT` makes the fold over the blocks start from the IV. -/
theorem sha256SequenceGivesTheDigest : Obligations.Sha256SequenceGivesTheDigest := by
  intro m s _
  obtain ⟨t, hblocks, hwords, hlen, hr⟩ := okayRun_shaBlocks_rdH (Seq.blocksOf (Seq.pad256 m))
    ((commandResult .shaInit s).respond 0x00000000#32)
  have hall := (okayRun_cmd (k := .shaInit) (s := s) rfl).append hblocks
  rw [← List.append_assoc] at hall
  refine ⟨t, ?_, hall.noError, hlen, hr, hall.cfg, hall.pending⟩
  rw [Seq.runSha256, Seq.sha256Transactions, hall.run, Option.map_some, hwords]
  rfl

/-- Settles O56: `RMD_INIT` makes the fold over the blocks start from `RIV`. -/
theorem rmd160SequenceGivesTheDigest : Obligations.Rmd160SequenceGivesTheDigest := by
  intro m s _ hp
  obtain ⟨t, hblocks, hwords, hlen, hh⟩ := okayRun_rmdBlocks_rdR (Seq.blocksOf (Seq.pad160 m))
    (s := (commandResult .rmdInit s).respond 0x00000000#32) hp
  have hall := (okayRun_cmd (k := .rmdInit) (s := s) hp).append hblocks
  rw [← List.append_assoc] at hall
  refine ⟨t, ?_, hall.noError, hlen, hh, hall.cfg, hall.pending⟩
  rw [Seq.runRmd160, Seq.rmd160Transactions, hall.run, Option.map_some, hwords]
  rfl

/-- The accumulator `MIDSTATE` leaves, in bytes, for a core that holds the message's length and first 64 bytes (R98). -/
theorem midstateBytes_midstate {s : State} {m : List Byte} (hm : m.length < 2 ^ 32)
    (hlen : s.len = BitVec.ofNat 32 m.length)
    (hbytes : ∀ (k : Fin 64) (hk : k.val < m.length), blkByte s.blk k = m[k.val]) (o : WordOrder) :
    Sha.midstateBytes o (Sha.midstate s.len s.blk) = Seq.computeMidstate o m := by
  obtain ⟨t, hexec, hagree⟩ := midstateAgreesWithComputeMidstate s m hm hlen hbytes
  rw [exec_midstate] at hexec
  cases hexec
  exact hagree o

/-- Settles O57: the writes put the core where R98 speaks of it. -/
theorem midstateOfSequenceGivesComputeMidstate : Obligations.MidstateOfSequenceGivesComputeMidstate := by
  intro m s hm
  obtain ⟨u, hload, hr, hbytes⟩ := okayRun_ldBytes (m.take 64) s
  obtain ⟨v, hset, hlen, hblk, hr'⟩ := okayRun_setLen m.length u
  have hmid := okayRun_cmd (k := .midstate) (s := v) rfl
  obtain ⟨t, hread, hwords, -, hr''⟩ := okayRun_rdH ((commandResult .midstate v).respond 0x00000000#32)
  have hall := ((hload.append hset).append hmid).append hread
  have hmessage (k : Fin 64) (hk : k.val < m.length) : blkByte v.blk k = m[k.val] := by
    rw [hblk, hbytes k (by rw [List.length_take]; omega), List.getElem_take]
  have hmidstate := midstateBytes_midstate hm hlen hmessage s.cfg.midstateWordOrder
  refine ⟨t, ?_, hall.noError, hr''.trans (hr'.trans hr), hall.cfg, hall.pending⟩
  rw [Seq.runMidstateOf, Seq.midstateOfTransactions, hall.run, Option.map_some, hwords, ← hmidstate]
  rfl

/-- Settles O58: the saved words are the transform of the first block from the IV. -/
theorem resumeFinishesTheDigest : Obligations.ResumeFinishesTheDigest := by
  intro m s s0 t0 hm _ hlen hblk hexec
  have hsaved : t0.h = Sha.compress Sha.iv (Seq.blockAt m 0) := by
    rw [exec_midstate, Sha.midstate_long _ _ hlen, hblk] at hexec
    cases hexec
    rfl
  obtain ⟨u, hload, hh⟩ := okayRun_ldH t0.h s
  obtain ⟨t, hblocks, hwords, -, -⟩ := okayRun_shaBlocks_rdH (Seq.blocksOf (Seq.pad256 m)).tail u
  have hall := hload.append hblocks
  rw [← List.append_assoc] at hall
  refine ⟨t, ?_, hall.noError⟩
  rw [Seq.runResume, Seq.resumeTransactions, hall.run, Option.map_some, hwords, hh, hsaved, Seq.sha256_eq_resumed hm]

/-- Settles O59: the four runs one after the other, each from the state the one before left. -/
theorem addrPayloadSequence : Obligations.AddrPayloadSequence := by
  intro pubkey s hm hp
  obtain ⟨s1, hrun1, hok1, -, -, hcfg1, -⟩ := sha256SequenceGivesTheDigest pubkey s hm
  obtain ⟨s2, hrun2, hok2, -⟩ := rmd160SequenceGivesTheDigest (Seq.sha256 pubkey) s1
    (by rw [Seq.sha256_length]; decide) (hcfg1 ▸ hp)
  obtain ⟨s3, hrun3, hok3, -⟩ := sha256SequenceGivesTheDigest (0x00#8 :: Seq.rmd160 (Seq.sha256 pubkey)) s2
    (by rw [List.length_cons, Seq.rmd160_length]; decide)
  obtain ⟨s4, hrun4, hok4, -⟩ := sha256SequenceGivesTheDigest
    (Seq.sha256 (0x00#8 :: Seq.rmd160 (Seq.sha256 pubkey))) s3 (by rw [Seq.sha256_length]; decide)
  refine ⟨s4, ?_, ((hok1.trans hok2).trans hok3).trans hok4⟩
  simp only [Seq.runAddrPayload, hrun1, hrun2, hrun3, hrun4, Option.bind_some, Option.map_some]
  rfl

end Sys2Proof.Machine

/-! ## 60_exceptions.md: the three exceptions (R150 to R155), errors do not latch (R158), no command fails on its data
(R166) -/

namespace Sys2Proof

open Machine

/-! ### Which transactions raise which exception -/

/-- A command word with none of the three faults of R58 is that of a command the build has. -/
theorem exists_command_of_not_illegal {c : Config} {w : Word} (h : ¬ IllegalCommandWord c w) :
    ∃ k : Command, k.exists c = true ∧ w = k.word := by
  simp only [IllegalCommandWord, not_or, not_not, not_and, Bool.not_eq_false] at h
  obtain ⟨hrsvd, hop, hunit⟩ := h
  have hword {n : Nat} (hn : n < 256) (hw : (cmdOp w).toNat = n) : w = BitVec.ofNat 32 n :=
    (cmdFields_eq_iff w n hn).1 ⟨hrsvd, hw⟩
  simp only [List.mem_cons, List.not_mem_nil, or_false] at hop hunit
  rcases hop with h | h | h | h | h | h | h
  · exact ⟨.nop, rfl, hword (by decide) h⟩
  · exact ⟨.shaInit, rfl, hword (by decide) h⟩
  · exact ⟨.shaBlock, rfl, hword (by decide) h⟩
  · exact ⟨.midstate, rfl, hword (by decide) h⟩
  · exact ⟨.rmdInit, hunit (.inl h), hword (by decide) h⟩
  · exact ⟨.rmdBlock, hunit (.inr h), hword (by decide) h⟩
  · exact ⟨.clear, rfl, hword (by decide) h⟩

theorem illegalCommandWord_of_decodeCommand_error {c : Config} {w : Word} {e : BusError}
    (h : decodeCommand c w = .error e) : IllegalCommandWord c w := by
  by_contra hlegal
  obtain ⟨k, hx, rfl⟩ := exists_command_of_not_illegal hlegal
  rw [decodeCommand_word hx] at h
  cases h

section
variable {c : Config} {t : Transaction}

/-- The causes of the exceptions (R152 to R154), which exclude each other. -/
theorem decode_error_cases {e : BusError} (h : decode c t = .error e) :
    (e = .errAlign ∧ t.addr.toNat % 4 ≠ 0) ∨
    (e = .errAddr ∧ t.addr.toNat % 4 = 0 ∧ UnmappedAddress c t.addr.toNat) ∨
    (e = .errCmd ∧ t.we = true ∧ t.addr = 0x00#8 ∧ IllegalCommandWord c t.wdata) := by
  rcases decode_cases c t with ⟨e', hl, hd⟩ | ⟨-, -, -, hd⟩ | ⟨-, -, -, -, hd⟩ | ⟨hw, ha, e', hk, hd⟩ |
    ⟨-, -, k, -, hd⟩ <;> rw [hd] at h <;> cases h
  · rcases locate_cases c t.addr with ⟨h4, hl'⟩ | ⟨h4, hm, hl'⟩ | ⟨g, -, -, hl'⟩ <;> rw [hl'] at hl <;> cases hl
    · exact .inl ⟨rfl, h4⟩
    · exact .inr (.inl ⟨rfl, h4, (mapped_eq_none_iff c t.addr h4).1 hm⟩)
  · exact .inr (.inr ⟨decodeCommand_error hk, hw, ha, illegalCommandWord_of_decodeCommand_error hk⟩)

theorem decode_errAlign_iff : decode c t = .error .errAlign ↔ t.addr.toNat % 4 ≠ 0 := by
  refine ⟨fun h => ?_, fun h4 => decode_of_locate_error (locate_of_misaligned c t.addr h4)⟩
  rcases decode_error_cases h with ⟨-, h4⟩ | ⟨he, -⟩ | ⟨he, -⟩
  · exact h4
  all_goals cases he

theorem decode_errAddr_iff :
    decode c t = .error .errAddr ↔ t.addr.toNat % 4 = 0 ∧ UnmappedAddress c t.addr.toNat := by
  refine ⟨fun h => ?_, fun ⟨h4, hu⟩ => decode_of_locate_error (locate_of_unmapped c t.addr h4 hu)⟩
  rcases decode_error_cases h with ⟨he, -⟩ | ⟨-, haddr⟩ | ⟨he, -⟩
  case inr.inl => exact haddr
  all_goals cases he

theorem decode_errCmd_iff :
    decode c t = .error .errCmd ↔ t.we = true ∧ t.addr = 0x00#8 ∧ IllegalCommandWord c t.wdata := by
  refine ⟨fun h => ?_, fun ⟨hw, ha, hi⟩ => ?_⟩
  · rcases decode_error_cases h with ⟨he, -⟩ | ⟨he, -⟩ | ⟨-, hcmd⟩
    case inr.inr => exact hcmd
    all_goals cases he
  · have ht : t = ctrlWrite t.wdata := by rw [ctrlWrite, ← hw, ← ha]
    rw [ht]
    exact decode_ctrlWrite_of_illegalCommandWord hi

end

theorem BusError.resp_injective : Function.Injective BusError.resp := by
  intro e e' h
  cases e <;> cases e' <;> cases h <;> rfl

end Sys2Proof

namespace Sys2Proof.Machine

/-! ### A transaction raises its exception or answers OKAY -/

section
variable {s u : State} {t : Transaction} {p : Response}

theorem transact_raises_or_okay (t : Transaction) (s : State) :
    (∃ e, decode s.cfg t = .error e ∧ transact t s = .next (s.raise e)) ∨
    ∃ u d, transact t s = .next u ∧ Answered s u ⟨.okay, d⟩ := by
  rcases transact_cases t s with ⟨e, hd, hu⟩ | ⟨g, -, -, -, -, hu⟩ | ⟨g, -, -, -, -, -, hu⟩ | ⟨k, -, -, -, -, -, hu⟩
  · exact .inl ⟨e, hd, hu⟩
  · exact .inr ⟨_, _, hu, answered_respond s _⟩
  · exact .inr ⟨_, 0x00000000#32, hu, by simp, by simp, by simp⟩
  · exact .inr ⟨_, _, hu, answered_commandResult k s⟩

/-- An error response is that of the exception the decoder raised, and nothing else has happened. -/
theorem raised_of_resp_ne_okay (h : transact t s = .next u) (hr : u.responses = s.responses ++ [p])
    (hp : p.resp ≠ .okay) : ∃ e, decode s.cfg t = .error e ∧ p = e.response ∧ u = s.raise e := by
  rcases transact_raises_or_okay t s with ⟨e, hd, hu⟩ | ⟨u', d, hu, hresp, -, -⟩ <;> rw [hu] at h <;> cases h
  · exact ⟨e, hd, by simpa using hr.symm, rfl⟩
  · obtain rfl : p = ⟨.okay, d⟩ := by simpa using hr.symm.trans hresp
    exact absurd rfl hp

theorem decode_error_of_resp {e : BusError} (h : transact t s = .next u) (hr : u.responses = s.responses ++ [p])
    (hp : p.resp = e.resp) : decode s.cfg t = .error e := by
  obtain ⟨e', hd, rfl, -⟩ := raised_of_resp_ne_okay h hr (hp ▸ e.resp_ne_okay)
  rw [hd, BusError.resp_injective hp]

end

/-- Settles O5: an exception's response is one of the three, and any other response is OKAY. -/
theorem everyTransactionAnswersOnce : Obligations.EveryTransactionAnswersOnce := by
  intro s t
  rcases transact_raises_or_okay t s with ⟨e, -, hu⟩ | ⟨u, d, hu, hok⟩
  · refine ⟨s.raise e, e.response, hu, answered_raise s e, .inr ⟨?_, sameElements_raise s e⟩⟩
    cases e with
    | errAlign => exact .inl rfl
    | errAddr => exact .inr (.inl rfl)
    | errCmd => exact .inr (.inr rfl)
  · exact ⟨u, ⟨.okay, d⟩, hu, hok, .inl rfl⟩

/-- Settles O15: the decoder raises `ERR_ALIGN` exactly for a misaligned address. -/
theorem errAlignExactlyWhenMisaligned : Obligations.ErrAlignExactlyWhenMisaligned := fun _ _ =>
  ⟨fun h4 => transact_of_decode_error (decode_errAlign_iff.2 h4),
    fun _ _ h hr hp => decode_errAlign_iff.1 (decode_error_of_resp h hr hp)⟩

/-- Settles O16: the decoder raises `ERR_ADDR` exactly for an aligned unmapped address. -/
theorem errAddrExactlyWhenUnmapped : Obligations.ErrAddrExactlyWhenUnmapped := fun _ _ =>
  ⟨fun h4 hu => transact_of_decode_error (decode_errAddr_iff.2 ⟨h4, hu⟩),
    fun _ _ h hr hp => decode_errAddr_iff.1 (decode_error_of_resp h hr hp)⟩

/-- Settles O17: the decoder raises `ERR_CMD` exactly for a write of an illegal command word to `CTRL`. -/
theorem errCmdExactlyForIllegalCommandWords : Obligations.ErrCmdExactlyForIllegalCommandWords := fun _ _ =>
  ⟨fun hw ha hi => transact_of_decode_error (decode_errCmd_iff.2 ⟨hw, ha, hi⟩),
    fun _ _ h hr hp => decode_errCmd_iff.1 (decode_error_of_resp h hr hp)⟩

/-! ### The log of responses -/

/-- The same state with the log `ps` (log 3). -/
def State.withResponses (s : State) (ps : List Response) : State := { s with responses := ps }

@[simp] theorem State.withResponses_cfg (s : State) (ps : List Response) : (s.withResponses ps).cfg = s.cfg := rfl

/-! Every operation of the core commutes with a change of the log, to which its response is then added. -/

theorem State.respond_withResponses (s : State) (ps : List Response) (d : Word) :
    (s.withResponses ps).respond d = (s.respond d).withResponses (ps ++ [⟨.okay, d⟩]) := rfl

theorem State.raise_withResponses (s : State) (ps : List Response) (e : BusError) :
    (s.withResponses ps).raise e = (s.raise e).withResponses (ps ++ [e.response]) := rfl

theorem State.readReg_withResponses (s : State) (ps : List Response) (g : Reg) :
    (s.withResponses ps).readReg g = s.readReg g := by cases g <;> rfl

theorem State.writeReg_withResponses (s : State) (ps : List Response) (g : Reg) (w : Word) :
    (s.withResponses ps).writeReg g w = (s.writeReg g w).withResponses ps := by cases g <;> rfl

theorem commandResult_withResponses (k : Command) (s : State) (ps : List Response) :
    commandResult k (s.withResponses ps) = (commandResult k s).withResponses ps := by cases k <;> rfl

/-- Serving a transaction commutes with a change of the log: the transaction decodes alike, and each of the four things
it can do commutes. -/
theorem transact_withResponses {t : Transaction} {s u : State} (ps : List Response) (h : transact t s = .next u) :
    ∃ p, u.responses = s.responses ++ [p] ∧
      transact t (s.withResponses ps) = .next (u.withResponses (ps ++ [p])) := by
  have hdec : decode (s.withResponses ps).cfg t = decode s.cfg t := rfl
  rcases transact_cases t s with ⟨e, hd, hu⟩ | ⟨g, ha, hx, -, hd, hu⟩ | ⟨g, ha, hx, hc, -, hd, hu⟩ |
    ⟨k, -, -, -, hx, hd, hu⟩ <;> rw [hu] at h <;> cases h
  case inl =>
    refine ⟨e.response, rfl, ?_⟩
    rw [transact_of_decode_error (hdec.trans hd), State.raise_withResponses]
  case inr.inl =>
    refine ⟨⟨.okay, s.readReg g⟩, rfl, ?_⟩
    rw [transact_of_decode_ok (hdec.trans hd), ha, exec_rd (by simpa using hx), State.readReg_withResponses,
      State.respond_withResponses]
  case inr.inr.inl =>
    refine ⟨⟨.okay, 0x00000000#32⟩, by simp, ?_⟩
    rw [transact_of_decode_ok (hdec.trans hd), ha, exec_wr (by simpa using hx) hc, State.writeReg_withResponses,
      State.respond_withResponses]
  case inr.inr.inr =>
    refine ⟨⟨.okay, 0x00000000#32⟩, by simp, ?_⟩
    rw [transact_of_decode_ok (hdec.trans hd), exec_command (by simpa using hx), commandResult_withResponses,
      State.respond_withResponses]

/-- Settles O19: a change of the log commutes with serving a transaction. -/
theorem responsesAreNotRead : Obligations.ResponsesAreNotRead := fun _ _ ps _ h => transact_withResponses ps h

/-- Settles O18: the failing transaction has changed the log alone, which the next one does not read. -/
theorem errorsDoNotLatch : Obligations.ErrorsDoNotLatch := by
  intro s u v w t t' p q hu hp herr hv hw hq
  obtain ⟨e, -, -, rfl⟩ := raised_of_resp_ne_okay hu hp herr
  obtain ⟨q', hq', hnext⟩ := transact_withResponses (s.raise e).responses hw
  obtain rfl : q = q' := by simpa using hq.symm.trans hq'
  have hlog : s.withResponses (s.raise e).responses = s.raise e := rfl
  rw [hlog, hv] at hnext
  cases hnext
  exact ⟨sameElements_raise s e, ⟨rfl, rfl, rfl, rfl⟩, rfl⟩

/-! ### Commands -/

/-- Settles O49: a command that the build has answers OKAY, 0 with its result. -/
theorem noCommandFailsOnItsData : Obligations.NoCommandFailsOnItsData := fun s k hk =>
  ⟨_, exec_command (Command.exists_of hk), answered_commandResult k s⟩

end Sys2Proof.Machine

/-! ## The invariant at reset (10_state.md R26) -/

namespace Sys2Proof.Machine

/-- Settles O2: reset zeroes the storage of `R` in either build, and no response has been given yet. -/
theorem resetMeetsInvariant : Obligations.ResetMeetsInvariant := fun c =>
  { absentUnit := fun _ => State.resetOf_r c
    errorData := by
      intro p hp
      rw [State.resetOf_responses] at hp
      exact absurd hp List.not_mem_nil }

end Sys2Proof.Machine
